-- ==== Sys2Proof/Word.lean ====
section
/-! DEFINITION. The machine's values: bytes, 16-bit words and register indices (spec/00_scope.md R6, sections 6 and 7). -/

namespace Sys2Proof

/-- A register's or a memory cell's contents: 8 bits, unsigned (R10, R17). -/
abbrev Byte := BitVec 8

/-- An instruction word, an address, a call-stack slot: 16 bits, unsigned (R50, R14, R18). -/
abbrev Word := BitVec 16

/-- A register index, 0 to 15. The encoding's field has 4 bits and the file 16 slots, so every value is
legal and no range check exists (R54, R145). -/
abbrev RegIdx := Fin 16

end Sys2Proof
end

