-- ==== Sys2Proof/Config.lean ====
section
/-! DEFINITION. What is fixed for the machine (spec/00_scope.md R6, R7) and the one free value the spec leaves open. -/

namespace Sys2Proof.Config

/-- FLAG_REG: the register that doubles as the carry/borrow flag (R6, R11). -/
def flagReg : RegIdx := 15

/-- MEM_SIZE: the number of memory cells (R6, R17). -/
def memSize : Nat := 4096

/-- MAX_LOAD: the longest program `load` accepts, in bytes (R6, R174). -/
def maxLoad : Nat := 4096

/-- LOAD_BASE: where `load` puts the first program byte (R6, R174). -/
def loadBase : Word := 0

/-- RESET_PC: `pc` after creation and after `reset` (R6, R24, R25). -/
def resetPc : Word := 0

/-- PC_STEP: how far `pc` moves per instruction (R6, R15). -/
def pcStep : Word := 2

/-- FREE VALUE: the byte that cell `address` holds after the `draw`-th faulting `load`; R175 (D7) leaves the
cells unspecified. It has no body, so nothing can be proved of it. Log 1. -/
opaque unspecifiedByte (draw address : Nat) : Byte

end Sys2Proof.Config
end

