-- ==== Sys2Proof/Syntax.lean ====
section
/-! DEFINITION. The encoded instructions, one constructor per row of spec/opcode_table.json (R3, R55). -/

namespace Sys2Proof

/-- An encoded instruction with its operands. In `mov`, `add` and `sub`, `x` is the destination and first operand
and `y` the source and second operand (R56). ClearScreen and Unimplemented are Operations without a row of the
table: see `Operation` in Decode.lean. -/
inductive Instr where
  /-- HALT, word 0000 (R110). -/
  | halt
  /-- LDI Vx, kk, word 6xkk, SetRegisterImmediate (R120). -/
  | ldi (x : RegIdx) (byte : Byte)
  /-- ADDI Vx, kk, word 7xkk, AddRegisterImmediate (R121). -/
  | addi (x : RegIdx) (byte : Byte)
  /-- MOV Vx, Vy, word 8xy0, CopyRegister (R130). -/
  | mov (x y : RegIdx)
  /-- ADD Vx, Vy, word 8xy4, AddRegisters (R131). -/
  | add (x y : RegIdx)
  /-- SUB Vx, Vy, word 8xy5, SubRegisters (R132). -/
  | sub (x y : RegIdx)
  deriving DecidableEq, Repr

end Sys2Proof
end

