-- ==== Sys2Proof/WellFormed.lean ====
section
/-! DEFINITION. The checks on what the core is handed: instructions and program images. -/

namespace Sys2Proof

/-- R74: "An Operation's fields are always in range by their width; no Operation value is ill-formed." The widths
are in the types of `Instr`'s fields, so there is nothing left to check (R145; log 15). -/
def Instr.wellFormed : Instr → Bool
  | .halt => true
  | .ldi _ _ => true
  | .addi _ _ => true
  | .mov _ _ => true
  | .add _ _ => true
  | .sub _ _ => true

/-- A program image that `load` accepts: at most MAX_LOAD bytes (R174, R175). Any bytes at all are allowed. -/
def wellFormedImage (bytes : List Byte) : Bool :=
  bytes.length ≤ Config.maxLoad

end Sys2Proof
end

