-- ==== Sys2Proof/Decode.lean ====
section
/-! DEFINITION. The instruction decoder (spec/40_decoder.md) and the encoder of R76. -/

namespace Sys2Proof

/-- The decoder's output and the execution unit's input: the eight tags of R74. The six encoded operations are the
instructions of the opcode table; the other two carry no field. -/
inductive Operation where
  /-- One of Halt, SetRegisterImmediate, AddRegisterImmediate, CopyRegister, AddRegisters, SubRegisters. -/
  | encoded (i : Instr)
  /-- Unimplemented, also called Unrecognized: the answer for every word no row takes (R57). -/
  | unimplemented
  /-- ClearScreen: the image of no word (R77), presented at the direct-dispatch port only (R98). -/
  | clearScreen
  deriving DecidableEq, Repr

/-- R71 (D14): the numbers of the tags, in the document's listing order. No rule depends on them. -/
def Operation.tag : Operation → Nat
  | .encoded .halt => 0
  | .unimplemented => 1
  | .clearScreen => 2
  | .encoded (.ldi _ _) => 3
  | .encoded (.addi _ _) => 4
  | .encoded (.mov _ _) => 5
  | .encoded (.add _ _) => 6
  | .encoded (.sub _ _) => 7

/-! ### The fields (R51, R52, R72) -/

/-- `op_major` = word[15:12] (R52). -/
def opMajor (word : Word) : BitVec 4 := word.extractLsb' 12 4

/-- `x` = word[11:8] (R51). -/
def fieldX (word : Word) : RegIdx := (word.extractLsb' 8 4).toFin

/-- `y` = word[7:4] (R51). -/
def fieldY (word : Word) : RegIdx := (word.extractLsb' 4 4).toFin

/-- `op_minor` = word[3:0] (R51). -/
def opMinor (word : Word) : BitVec 4 := word.extractLsb' 0 4

/-- `byte` = word[7:0] (R51). -/
def fieldByte (word : Word) : Byte := word.extractLsb' 0 8

/-- `addr` = word[11:0]: extracted, and connected to nothing (R72). -/
def fieldAddr (word : Word) : BitVec 12 := word.extractLsb' 0 12

/-! ### The decoder (R73) -/

/-- R73, arm by arm: pure and total on every word (R70). -/
def decode (word : Word) : Operation :=
  if word = 0x0000#16 then .encoded .halt
  else if opMajor word = 0x6#4 then .encoded (.ldi (fieldX word) (fieldByte word))
  else if opMajor word = 0x7#4 then .encoded (.addi (fieldX word) (fieldByte word))
  else if opMajor word = 0x8#4 then
    if opMinor word = 0x0#4 then .encoded (.mov (fieldX word) (fieldY word))
    else if opMinor word = 0x4#4 then .encoded (.add (fieldX word) (fieldY word))
    else if opMinor word = 0x5#4 then .encoded (.sub (fieldX word) (fieldY word))
    else .unimplemented
  else .unimplemented

/-- The word two consecutive bytes form: the byte at the lower address is word[15:8] (R34). -/
def wordOfBytes (b1 b2 : Byte) : Word := b1 ++ b2

/-! ### The encoder (R76) -/

/-- A register index as its 4-bit field. -/
def regField (x : RegIdx) : BitVec 4 := BitVec.ofNat 4 x.val

/-- R76: the one word of an encoded instruction. -/
def encode : Instr → Word
  | .halt => 0x0000#16
  | .ldi x byte => 0x6#4 ++ regField x ++ byte
  | .addi x byte => 0x7#4 ++ regField x ++ byte
  | .mov x y => 0x8#4 ++ regField x ++ regField y ++ 0x0#4
  | .add x y => 0x8#4 ++ regField x ++ regField y ++ 0x4#4
  | .sub x y => 0x8#4 ++ regField x ++ regField y ++ 0x5#4

/-- The rows of spec/opcode_table.json as (match, mask): a word `w` is in the row when `w &&& mask = match` (R55). -/
def Instr.row : Instr → Word × Word
  | .halt => (0x0000#16, 0xFFFF#16)
  | .ldi _ _ => (0x6000#16, 0xF000#16)
  | .addi _ _ => (0x7000#16, 0xF000#16)
  | .mov _ _ => (0x8000#16, 0xF00F#16)
  | .add _ _ => (0x8004#16, 0xF00F#16)
  | .sub _ _ => (0x8005#16, 0xF00F#16)

/-! ### The host's numbering of a table word -/

/-- The two bytes, lower address first, of an instruction whose bits are the low `nbits` bits of `w`, bit 0 the least
significant bit of its (only) word (R50, R34). -/
def tableBytes (nbits w : Nat) : Byte × Byte :=
  let word := BitVec.ofNat 16 (w % 2 ^ nbits)
  (word.extractLsb' 8 8, word.extractLsb' 0 8)

/-- The instruction the decoder reads from those bytes; none for Unimplemented. -/
def decodeTableWord (nbits w : Nat) : Option Instr :=
  match decode (wordOfBytes (tableBytes nbits w).1 (tableBytes nbits w).2) with
  | .encoded i => some i
  | .unimplemented => none
  | .clearScreen => none

end Sys2Proof
end

