-- ==== Sys2Proof/Machine/State.lean ====
section
/-! DEFINITION. The state of the core (spec/10_state.md section 1), the reasons a step can stop, and the power-on
state. -/

namespace Sys2Proof.Machine

/-- The spec's three faults (R140). `raise` latches one in `status` and the machine goes to a NEXT state (R149), so
no step of this model answers `Outcome.fault` (log 5; safe). -/
inductive Fault where
  /-- Raised by the fetch when `pc` or `pc + 1` is out of bounds (R141). Safe: the spec's own fault. -/
  | fetchBounds
  /-- Raised by `load` of more than 4096 bytes (R142). Safe: the spec's own fault. -/
  | loadBounds
  /-- Raised by the dispatch of the Unimplemented tag (R143). Safe: the spec's own fault. -/
  | unimplementedOpcode
  deriving DecidableEq, Repr

/-- What the model gives no meaning to. -/
inductive Refusal where
  /-- An instruction without a meaning, by its mnemonic: raised by no arm of `exec`, every instruction has its
  meaning. Safe: a refusal proves nothing false. -/
  | notModelled (mnemonic : String)
  deriving DecidableEq, Repr

/-- The status latch (R21). -/
inductive Status where
  /-- Created or reset, no run has ended since. -/
  | idle
  /-- Inside `run()`. -/
  | running
  /-- The last `run()` reached Halt. -/
  | halted
  /-- A fault ended the last `run()` or `load`; it stays until `reset`. -/
  | faulted (kind : Fault)
  deriving DecidableEq, Repr

/-- What the host can present to a core that is not Running (R5, R98, R178). -/
inductive Command where
  /-- `reset()` (R171). -/
  | reset
  /-- `load(bytes)` (R174). -/
  | load (bytes : List Byte)
  /-- `run()` (R90). -/
  | run
  /-- The direct-dispatch port: perform one Operation (R98). -/
  | execute (op : Operation)
  deriving DecidableEq, Repr

/-- The memory array as (address, byte) pairs, addresses strictly rising, holding only the cells that differ from what
an unlisted cell reads as (log 14). -/
abbrev Memory := List Host.Cell

/-- The display buffer: 32 rows of 64 pixels, true for on (R20; D9). -/
abbrev Display := Vector (Vector Bool 64) 32

/-- Every pixel off. -/
def Display.allOff : Display := Vector.replicate 32 (Vector.replicate 64 false)

/-- All the state of the core (R23), and the model's own `pending` and `draws`. -/
structure State where
  /-- The general registers `V[0..15]`; `V[15]` is the flag (R10, R11). -/
  v : Vector Byte 16
  /-- The program counter (R14). -/
  pc : Word
  /-- The memory array `mem[0..4095]` (R17). -/
  mem : Memory
  /-- The call stack's slots (R18). -/
  stack : Vector Word 16
  /-- The stack pointer (R19). -/
  sp : BitVec 4
  /-- The display buffer `disp[r][c]` (R20). -/
  disp : Display
  /-- The status latch (R21). -/
  status : Status
  /-- The model's own: the host's commands not yet presented, in order (log 3). -/
  pending : List Command
  /-- The model's own: how often unspecified memory contents have been drawn (log 2). -/
  draws : Nat
  deriving DecidableEq, Repr

/-- Creation (R24, R170): everything zero, the display off, `status` Idle. `pending` and `draws` are the model's own
(logs 2, 3). -/
def State.reset : State where
  v := Vector.replicate 16 0
  pc := Config.resetPc
  mem := []
  stack := Vector.replicate 16 0
  sp := 0
  disp := Display.allOff
  status := .idle
  pending := []
  draws := 0

end Sys2Proof.Machine
end

