-- ==== Sys2Proof/Machine/Ops.lean ====
section
/-! DEFINITION. The named operations over memory, registers, the program counter and the status latch, and fault
entry. -/

namespace Sys2Proof.Machine

/-! ### The memory array as data -/

/-- What a cell that is not listed reads as: memory is zero-initialized (R17, R24). -/
def Memory.unlisted : Byte := 0

/-- The byte at cell `a` (R32). -/
def Memory.read : Memory → Nat → Byte
  | [], _ => Memory.unlisted
  | (k, b) :: rest, a => if a = k then b else Memory.read rest a

/-- Put `b` into cell `a` (R33), keeping the canonical form. -/
def Memory.write : Memory → Nat → Byte → Memory
  | [], a, b => if b = Memory.unlisted then [] else [(a, b)]
  | (k, c) :: rest, a, b =>
    if a < k then (if b = Memory.unlisted then (k, c) :: rest else (a, b) :: (k, c) :: rest)
    else if a = k then (if b = Memory.unlisted then rest else (a, b) :: rest)
    else (k, c) :: Memory.write rest a b

/-- The cells listed from address `lo` up are in canonical form: strictly rising, inside the array, none equal to what
an unlisted cell reads as. -/
def Memory.wfFrom : Nat → Memory → Bool
  | _, [] => true
  | lo, (k, b) :: rest =>
    decide (lo ≤ k) && decide (k < Config.memSize) && decide (b ≠ Memory.unlisted) && Memory.wfFrom (k + 1) rest

/-- The canonical form of a whole memory. -/
def Memory.wf (m : Memory) : Bool := Memory.wfFrom 0 m

/-- The cells `a`, `a + 1`, … (`n` of them) with contents `f`, in canonical form. -/
def Memory.tabulateFrom (f : Nat → Byte) : Nat → Nat → Memory
  | _, 0 => []
  | a, n + 1 =>
    if f a = Memory.unlisted then Memory.tabulateFrom f (a + 1) n
    else (a, f a) :: Memory.tabulateFrom f (a + 1) n

/-! ### The address decoder and the access primitives (spec/20_memory.md) -/

/-- The address decoder's test: no set bit among the top four (R31). -/
def inBounds (a : Word) : Bool := a.extractLsb' 12 4 == 0#4

/-- The cell an address selects: its low 12 bits (R31). -/
def cellOf (a : Word) : Nat := (a.extractLsb' 0 12).toNat

/-- MemRead(a, 1) (R32). -/
def memRead (a : Word) (s : State) : Except Fault Byte :=
  if inBounds a then .ok (Memory.read s.mem (cellOf a)) else .error .fetchBounds

/-- MemWrite(a, 1, b) (R33). -/
def memWrite (a : Word) (b : Byte) (s : State) : Except Fault State :=
  if inBounds a then .ok { s with mem := Memory.write s.mem (cellOf a) b } else .error .loadBounds

/-- The fetch (R34): the bytes at `pc` and `pc + 1`, the first one the more significant; FetchBounds if either address
is out of bounds. It changes nothing (R92). -/
def fetch (s : State) : Except Fault Word :=
  match memRead s.pc s, memRead (s.pc + 1) s with
  | .ok b1, .ok b2 => .ok (wordOfBytes b1 b2)
  | .error k, _ => .error k
  | .ok _, .error k => .error k

/-! ### Registers, program counter, status -/

/-- Read `V[x]`: what was last written to it, no register being hard-wired (R10). -/
def State.reg (s : State) (x : RegIdx) : Byte := s.v[x]

/-- `V[x] <- b` (R10, R12). -/
def State.setReg (s : State) (x : RegIdx) (b : Byte) : State := { s with v := s.v.set x b }

/-- Phase 3: advance `pc` by 2, modulo 65536 (R94, R91). -/
def State.advance (s : State) : State := { s with pc := s.pc + Config.pcStep }

/-- `status <- st` (R21). -/
def State.setStatus (s : State) (st : Status) : State := { s with status := st }

/-- Fault entry, the ONE shared operation (R149): the kind is latched in `status`; nothing is saved and control goes
nowhere (R147, R150). There is no return from a fault (R151): only the `reset` command clears the latch. -/
def raise (kind : Fault) (s : State) : State := s.setStatus (.faulted kind)

/-- Turn the whole display off (R112). -/
def State.clearDisplay (s : State) : State := { s with disp := Display.allOff }

/-- The memory R175 leaves unspecified: every cell a free value, a fresh draw each time (log 1). -/
def State.forgetMemory (s : State) : State :=
  { s with mem := Memory.tabulateFrom (Config.unspecifiedByte s.draws) 0 Config.memSize, draws := s.draws + 1 }

/-- The core at launch with display content DISP_LAUNCH, the spec's one open parameter (R20, D9; log 10). -/
def State.launch (dispLaunch : Display) : State := { State.reset with disp := dispLaunch }

/-! ### What the host reads off a stopped core (R146, R147) -/

/-- R146 (D5): the numbers of the fault kinds. -/
def Fault.code : Fault → Nat
  | .fetchBounds => 1
  | .loadBounds => 2
  | .unimplementedOpcode => 3

/-- R146 (D5): the code of a status, 0 when there is no fault. -/
def Status.faultCode : Status → Nat
  | .idle => 0
  | .running => 0
  | .halted => 0
  | .faulted kind => kind.code

/-- R147: the address a fault of a run is about, computed from the state it leaves: `pc` for FetchBounds, `pc - 2` for
UnimplementedOpcode. LoadBounds has none. -/
def State.faultAddress (s : State) : Option Word :=
  match s.status with
  | .faulted .fetchBounds => some s.pc
  | .faulted .unimplementedOpcode => some (s.pc - Config.pcStep)
  | .faulted .loadBounds => none
  | .idle => none
  | .running => none
  | .halted => none

end Sys2Proof.Machine
end

