-- ==== Sys2Proof/Machine/Operands.lean ====
section
/-! DEFINITION. The operand forms (spec/30_encoding.md R54): there are two, a register and an 8-bit literal. -/

namespace Sys2Proof.Machine

/-- A register operand: `x` or `y` selects `V[x]` or `V[y]` directly (R54). -/
def regOperand (x : RegIdx) (s : State) : Byte := s.reg x

/-- A literal operand: `byte` as it stands, neither extended nor scaled nor shifted (R54). -/
def literalOperand (byte : Byte) : Byte := byte

/-- Formats XYN: first and second operand, both read before anything is written (R131, R132). -/
def regPair (x y : RegIdx) (s : State) : Byte × Byte := (regOperand x s, regOperand y s)

/-- Format XKK: the register that is first operand and destination, and the literal (R121). -/
def regLiteral (x : RegIdx) (byte : Byte) (s : State) : Byte × Byte := (regOperand x s, literalOperand byte)

end Sys2Proof.Machine
end

