-- ==== Sys2Proof/Machine/Flags.lean ====
section
/-! DEFINITION. 8-bit arithmetic and the carry/borrow flag (spec/44_register_ops.md R131 to R133). -/

namespace Sys2Proof.Machine

/-- `zext_9` (spec/00_scope.md section 7). -/
def zext9 (b : Byte) : BitVec 9 := b.setWidth 9

/-- `trunc_8`: the value modulo 256 (spec/00_scope.md section 7). -/
def trunc8 (r : BitVec 9) : Byte := r.setWidth 8

/-- The true sum, 9 bits (R131). -/
def sum9 (a b : Byte) : BitVec 9 := zext9 a + zext9 b

/-- The true difference modulo 512 (R132, R133). -/
def diff9 (a b : Byte) : BitVec 9 := zext9 a - zext9 b

/-- Carry: the true sum exceeds 255 (R131). -/
def carries (a b : Byte) : Bool := decide (255#9 < sum9 a b)

/-- Borrow: the subtrahend `b` is greater than the minuend `a` (R132). -/
def borrows (a b : Byte) : Bool := decide (a < b)

/-- The flag is set-only: on an event `V[15] <- 1`, otherwise it is NOT cleared but keeps its byte (R11, R131,
R132). -/
def setFlagIf (event : Bool) (s : State) : State := if event then s.setReg Config.flagReg 1 else s

end Sys2Proof.Machine
end

