-- ==== Sys2Proof/Machine/Immediate.lean ====
section
/-! DEFINITION. The immediate operations (spec/43_immediate_ops.md), format XKK. -/

namespace Sys2Proof.Machine

/-- LDI Vx, kk (R120): `V[x] <- byte`, no flag effect. -/
def execLdi (x : RegIdx) (byte : Byte) (s : State) : Host.Outcome State Fault Refusal :=
  .next (s.setReg x (literalOperand byte))

/-- ADDI Vx, kk (R121): `V[x] <- (V[x] + byte) mod 256`, no flag effect even when it wraps. -/
def execAddi (x : RegIdx) (byte : Byte) (s : State) : Host.Outcome State Fault Refusal :=
  let (a, b) := regLiteral x byte s
  .next (s.setReg x (trunc8 (sum9 a b)))

end Sys2Proof.Machine
end

