-- ==== Sys2Proof/Machine/Register.lean ====
section
/-! DEFINITION. The register-to-register operations (spec/44_register_ops.md), format XYN. -/

namespace Sys2Proof.Machine

/-- MOV Vx, Vy (R130): `V[x] <- V[y]`, no flag effect. -/
def execMov (x y : RegIdx) (s : State) : Host.Outcome State Fault Refusal :=
  .next (s.setReg x (regOperand y s))

/-- ADD Vx, Vy (R131): operands first, then the carry into `V[15]`, then the wrapped sum into `V[x]`, so that for
`x = 15` the sum stands (D3; log 7). -/
def execAdd (x y : RegIdx) (s : State) : Host.Outcome State Fault Refusal :=
  let (a, b) := regPair x y s
  .next ((setFlagIf (carries a b) s).setReg x (trunc8 (sum9 a b)))

/-- SUB Vx, Vy (R132): `V[x] - V[y]`; operands first, then the borrow into `V[15]` (1 means a borrow), then the wrapped
difference into `V[x]` (D3; log 7). -/
def execSub (x y : RegIdx) (s : State) : Host.Outcome State Fault Refusal :=
  let (a, b) := regPair x y s
  .next ((setFlagIf (borrows a b) s).setReg x (trunc8 (diff9 a b)))

end Sys2Proof.Machine
end

