-- ==== Sys2Proof/Machine/System.lean ====
section
/-! DEFINITION. The operations without operands (spec/42_system_ops.md): Halt, Unimplemented, ClearScreen. Each is the
handler alone: `pc` has already been advanced when a step calls it (R94). -/

namespace Sys2Proof.Machine

/-- HALT (R110): the run loop ends normally. -/
def execHalt (s : State) : Host.Outcome State Fault Refusal := .next (s.setStatus .halted)

/-- Unimplemented (R111): always the UnimplementedOpcode fault. -/
def execUnimplemented (s : State) : Host.Outcome State Fault Refusal := .next (raise .unimplementedOpcode s)

/-- ClearScreen (R112): every cell of the display buffer off. -/
def execClearScreen (s : State) : Host.Outcome State Fault Refusal := .next s.clearDisplay

end Sys2Proof.Machine
end

