-- ==== Sys2Proof/Machine/Dispatch.lean ====
section
/-! DEFINITION. The dispatch of an encoded instruction to its meaning (R95). -/

namespace Sys2Proof.Machine

-- Phase 4 of a step: `pc` has already been advanced (R94).
def exec (i : Instr) (s : State) : Host.Outcome State Fault Refusal :=
  match i with
  | .halt => Sys2Proof.Machine.execHalt s
  | .ldi x byte => Sys2Proof.Machine.execLdi x byte s
  | .addi x byte => Sys2Proof.Machine.execAddi x byte s
  | .mov x y => Sys2Proof.Machine.execMov x y s
  | .add x y => Sys2Proof.Machine.execAdd x y s
  | .sub x y => Sys2Proof.Machine.execSub x y s

end Sys2Proof.Machine
end

