-- ==== Sys2Proof/Machine/Cycle.lean ====
section
/-! DEFINITION. The execution unit over all eight tags, and one iteration of the run loop
(spec/41_execution_cycle.md). -/

namespace Sys2Proof.Machine

/-- `execute(op)` (R95): exactly one handler, by the tag. -/
def execute (op : Operation) (s : State) : Host.Outcome State Fault Refusal :=
  match op with
  | .encoded i => exec i s
  | .unimplemented => execUnimplemented s
  | .clearScreen => execClearScreen s

/-- One step of the core (R91): fetch, decode, advance `pc`, dispatch. A fetch fault ends it before the advance. -/
def cycle (s : State) : Host.Outcome State Fault Refusal :=
  match fetch s with
  | .error kind => .next (raise kind s)
  | .ok word => execute (decode word) s.advance

end Sys2Proof.Machine
end

