-- ==== Sys2Proof/Machine/Commands.lean ====
section
/-! DEFINITION. The host's commands and when the core accepts them (spec/70_reset_and_hazards.md, R90, R98). -/

namespace Sys2Proof.Machine

/-- `reset()` (R171): everything of the core to its zero state except the display (R172). The model's own fields are
no part of the core and stay. -/
def resetCommand (s : State) : State :=
  { State.reset with disp := s.disp, pending := s.pending, draws := s.draws }

/-- The copy loop of `load` (R174): one MemWrite per byte, from address `a` up. -/
def copyIn (a : Word) : List Byte → State → Except Fault State
  | [], s => .ok s
  | b :: rest, s =>
    match memWrite a b s with
    | .ok s' => copyIn (a + 1) rest s'
    | .error kind => .error kind

/-- `load(bytes)` (R174): LoadBounds when the image is longer than 4096 bytes, and then memory is unspecified (R175;
log 1); otherwise the copy. It touches neither `pc` nor a register (R176). -/
def loadCommand (bytes : List Byte) (s : State) : State :=
  if wellFormedImage bytes then
    match copyIn Config.loadBase bytes s with
    | .ok s' => s'
    | .error kind => raise kind s.forgetMemory
  else raise .loadBounds s.forgetMemory

/-- `run()` (R90): `status <- Running` and nothing else; the core steps from then on, from the current `pc`. -/
def runCommand (s : State) : State := s.setStatus .running

/-- The acceptance table (R178; D6). While Running no command can be presented. -/
def accepts : Status → Command → Bool
  | .idle, _ => true
  | .halted, _ => true
  | .faulted _, .reset => true
  | .faulted _, .load _ => false
  | .faulted _, .run => false
  | .faulted _, .execute _ => false
  | .running, _ => false

/-- An accepted command's effect. Direct dispatch fetches nothing and does not advance `pc` (R98). -/
def perform (c : Command) (s : State) : Host.Outcome State Fault Refusal :=
  match c with
  | .reset => .next (resetCommand s)
  | .load bytes => .next (loadCommand bytes s)
  | .run => .next (runCommand s)
  | .execute op => execute op s

/-- The host's move while the core is stopped: its next command is presented; a refused one changes nothing (R178);
with none left the core keeps all its state (R159; log 4). -/
def hostMove (s : State) : Host.Outcome State Fault Refusal :=
  match s.pending with
  | [] => .next s
  | c :: rest =>
    if accepts s.status c then perform c { s with pending := rest } else .next { s with pending := rest }

/-- Put two bytes where the next fetch reads, if that fetch is in bounds. -/
def placeAtPc (b1 b2 : Byte) (s : State) : State :=
  match copyIn s.pc [b1, b2] s with
  | .ok s' => s'
  | .error _ => s

end Sys2Proof.Machine
end

