-- ==== Sys2Proof/Machine/Step.lean ====
section
/-! DEFINITION. One step of the machine: the core's while Running, the host's otherwise (R4, R97, R178). -/

namespace Sys2Proof.Machine

/-- One step. The host has no move while the core is Running (R178). -/
def step (s : State) : Host.Outcome State Fault Refusal :=
  match s.status with
  | .running => cycle s
  | .idle => hostMove s
  | .halted => hostMove s
  | .faulted _ => hostMove s

/-- `s` inside a run, with the instruction whose table bits are `w` where the next fetch reads it (log 13). Where `pc`
is above 4094 there is no such place and only the status changes. -/
def State.withFetchWord (s : State) (nbits w : Nat) : State :=
  (placeAtPc (tableBytes nbits w).1 (tableBytes nbits w).2 s).setStatus .running

end Sys2Proof.Machine
end

