-- ==== Sys2Proof/Safety.lean ====
section
/-! DEFINITION. What counts as a good state, a reachable state and an unchanged rest, in the terms the statements use. -/

namespace Sys2Proof.Machine

/-- The machine's invariant: memory in canonical form (log 14), `pc` even and at most 4096 (R16). -/
abbrev State.Inv (s : State) : Prop :=
  Memory.wf s.mem = true ∧ s.pc.toNat % 2 = 0 ∧ s.pc.toNat ≤ 4096

/-- The call stack and its pointer are zero (R18, R19). -/
abbrev State.StackZero (s : State) : Prop :=
  s.stack = Vector.replicate 16 0 ∧ s.sp = 0

/-- A state without a latched fault. -/
abbrev State.FaultFree (s : State) : Prop := ∀ kind, s.status ≠ .faulted kind

/-- The states a core can be in from creation on, whatever the display held at launch and whatever commands the host
presents (R26, R177, R178). -/
inductive Reachable : State → Prop where
  | atLaunch (dispLaunch : Display) (commands : List Command) :
      Reachable { State.launch dispLaunch with pending := commands }
  | byStep {s t : State} : Reachable s → step s = .next t → Reachable t

/-- From `s` to `t` nothing changed but, perhaps, registers and `status`; memory is compared byte by byte. -/
def OnlyRegsOrStatusChanged (s t : State) : Prop :=
  t.pc = s.pc ∧ (∀ a, Memory.read t.mem a = Memory.read s.mem a) ∧ t.stack = s.stack ∧ t.sp = s.sp ∧
    t.disp = s.disp ∧ t.pending = s.pending ∧ t.draws = s.draws

/-- From `s` to `t` nothing changed but, perhaps, the registers in `written`. -/
def OnlyTheseRegsChanged (written : List RegIdx) (s t : State) : Prop :=
  OnlyRegsOrStatusChanged s t ∧ t.status = s.status ∧ ∀ k, k ∉ written → t.v[k] = s.v[k]

/-- From `s` to `t` nothing changed but, perhaps, `status`. -/
def OnlyStatusChanged (s t : State) : Prop :=
  OnlyRegsOrStatusChanged s t ∧ t.v = s.v

/-- The six instruction rows of the opcode table as (match, mask), as R55 lists them. -/
def tableRows : List (Word × Word) :=
  [(0x0000#16, 0xFFFF#16), (0x6000#16, 0xF000#16), (0x7000#16, 0xF000#16), (0x8000#16, 0xF00F#16),
    (0x8004#16, 0xF00F#16), (0x8005#16, 0xF00F#16)]

/-- The destination register of an instruction (R13). -/
def destOf : Instr → Option RegIdx
  | .halt => none
  | .ldi x _ => some x
  | .addi x _ => some x
  | .mov x _ => some x
  | .add x _ => some x
  | .sub x _ => some x

end Sys2Proof.Machine
end

