-- ==== Sys2Proof/Certificates/Slice0/Obligations.lean ====
section
/-! DEFINITION. The statements for the provers, from the numbered rules of spec/. `D<n>` names a decision of
spec/92_eei_decisions.md, "log n" a row of notes/assumptions. -/

open Sys2Proof Sys2Proof.Machine

/-! ### Creation -/

/-- R24: after creation everything is zero, the display off, `status` Idle. The spec marks `sp` (D8, log 9) and `status`
(D4) as its own decisions. Nothing is said of the model's own fields. -/
def Obligations.CreationLeavesEverythingZero : Prop :=
  (∀ k : RegIdx, State.reset.v[k] = 0) ∧ State.reset.pc = 0 ∧ (∀ a, Memory.read State.reset.mem a = 0) ∧
    (∀ k : Fin 16, State.reset.stack[k] = 0) ∧ State.reset.sp = 0 ∧
    (∀ (r : Fin 32) (c : Fin 64), State.reset.disp[r][c] = false) ∧ State.reset.status = .idle

/-! ### Encoding -/

/-- Words written out from the encodings of R51 to R56, with what R73 says they decode to. -/
def Obligations.WrittenOutWordsDecode : Prop :=
  decode 0b0000000000000000#16 = .encoded .halt ∧
    decode 0b0110101010111100#16 = .encoded (.ldi 0xA 0xBC#8) ∧
    decode 0b0111111100000001#16 = .encoded (.addi 0xF 0x01#8) ∧
    decode 0b1000000100100000#16 = .encoded (.mov 0x1 0x2) ∧
    decode 0b1000101010110100#16 = .encoded (.add 0xA 0xB) ∧
    decode 0b1000111111110101#16 = .encoded (.sub 0xF 0xF) ∧
    decode 0b0000000011100000#16 = .unimplemented ∧
    decode 0b1000000100100001#16 = .unimplemented

/-- R73: the whole decoder by the numeric ranges of its arms, which share no word. -/
def Obligations.DecodeFollowsTheDispatchTable : Prop :=
  ∀ w : Word,
    (w.toNat = 0 → decode w = .encoded .halt) ∧
    (0x6000 ≤ w.toNat → w.toNat ≤ 0x6FFF → ∃ x byte, decode w = .encoded (.ldi x byte) ∧
      x.val = w.toNat / 256 % 16 ∧ byte.toNat = w.toNat % 256) ∧
    (0x7000 ≤ w.toNat → w.toNat ≤ 0x7FFF → ∃ x byte, decode w = .encoded (.addi x byte) ∧
      x.val = w.toNat / 256 % 16 ∧ byte.toNat = w.toNat % 256) ∧
    (0x8000 ≤ w.toNat → w.toNat ≤ 0x8FFF → w.toNat % 16 = 0 → ∃ x y, decode w = .encoded (.mov x y) ∧
      x.val = w.toNat / 256 % 16 ∧ y.val = w.toNat / 16 % 16) ∧
    (0x8000 ≤ w.toNat → w.toNat ≤ 0x8FFF → w.toNat % 16 = 4 → ∃ x y, decode w = .encoded (.add x y) ∧
      x.val = w.toNat / 256 % 16 ∧ y.val = w.toNat / 16 % 16) ∧
    (0x8000 ≤ w.toNat → w.toNat ≤ 0x8FFF → w.toNat % 16 = 5 → ∃ x y, decode w = .encoded (.sub x y) ∧
      x.val = w.toNat / 256 % 16 ∧ y.val = w.toNat / 16 % 16) ∧
    (0x8000 ≤ w.toNat → w.toNat ≤ 0x8FFF → w.toNat % 16 ≠ 0 → w.toNat % 16 ≠ 4 → w.toNat % 16 ≠ 5 →
      decode w = .unimplemented) ∧
    (w.toNat ≠ 0 → w.toNat < 0x6000 ∨ 0x9000 ≤ w.toNat → decode w = .unimplemented)

/-- R55, R57: a word is Unimplemented exactly when it matches none of the six rows of the opcode table. -/
def Obligations.UnimplementedIffNoRowMatches : Prop :=
  ∀ w : Word, decode w = .unimplemented ↔ ∀ row ∈ tableRows, w &&& row.2 ≠ row.1

/-- R76: decoding an encoded instruction gives it back, with every operand at every value. -/
def Obligations.DecodeOfEncodeIsTheInstruction : Prop :=
  ∀ i : Instr, decode (encode i) = .encoded i

/-- R76: an implemented Operation value determines its word. -/
def Obligations.EncodeOfDecodeIsTheWord : Prop :=
  ∀ (w : Word) (i : Instr), decode w = .encoded i → encode i = w

/-- R77: no word decodes to ClearScreen. The spec marks this as its decision D1 (log 11). -/
def Obligations.NoWordDecodesToClearScreen : Prop :=
  ∀ w : Word, decode w ≠ .clearScreen

/-- The host's numbering agrees with the decoder: a 16-bit table word gives its instruction, or none. -/
def Obligations.TableWordIsTheDecodedWord : Prop :=
  ∀ (w : Word) (i : Instr), decodeTableWord 16 w.toNat = some i ↔ decode w = .encoded i

/-! ### Fetch and the step -/

/-- R32, R33: a read of a cell in bounds gives its byte and otherwise FetchBounds; a write in bounds changes that cell alone
and otherwise is LoadBounds. Canonical form is the premise under which a write finds its place (log 14). -/
def Obligations.MemoryAccessesAreBounded : Prop :=
  ∀ (s : State) (a : Word) (b : Byte), Memory.wf s.mem = true →
    (a.toNat ≤ 4095 → memRead a s = .ok (Memory.read s.mem a.toNat) ∧ ∃ t, memWrite a b s = .ok t ∧
      (∀ x, Memory.read t.mem x = if x = a.toNat then b else Memory.read s.mem x) ∧ t = { s with mem := t.mem }) ∧
    (4095 < a.toNat → memRead a s = .error .fetchBounds ∧ memWrite a b s = .error .loadBounds)

/-- R34: the fetch is big-endian, and out of bounds it is a FetchBounds fault under which nothing else changes; for an even
`pc` up to 4096 both bounds tests fail exactly at 4096. -/
def Obligations.FetchIsBigEndianAndBounded : Prop :=
  ∀ s : State,
    (s.pc.toNat ≤ 4095 → (s.pc + 1).toNat ≤ 4095 → ∃ w, fetch s = .ok w ∧
      w.toNat = 256 * (Memory.read s.mem s.pc.toNat).toNat + (Memory.read s.mem (s.pc + 1).toNat).toNat) ∧
    (4095 < s.pc.toNat ∨ 4095 < (s.pc + 1).toNat → fetch s = .error .fetchBounds ∧
      (s.status = .running → step s = .next { s with status := .faulted .fetchBounds })) ∧
    (s.pc.toNat % 2 = 0 → s.pc.toNat ≤ 4096 →
      (4095 < s.pc.toNat ↔ s.pc = 4096) ∧ (4095 < (s.pc + 1).toNat ↔ s.pc = 4096))

/-- R91: a step of a running core is fetch, decode, advance, dispatch. Where the word at `pc` decodes to `i`, the step is
`exec i` with `pc` moved past it; where it decodes to nothing implemented, the fault comes after the advance; where the
fetch faults, `pc` is not advanced. -/
def Obligations.StepRunsTheDecodedInstruction : Prop :=
  ∀ s : State, s.status = .running →
    (s.pc.toNat ≤ 4094 →
      (∀ i, decode (Memory.read s.mem s.pc.toNat ++ Memory.read s.mem (s.pc.toNat + 1)) = .encoded i →
        step s = exec i { s with pc := s.pc + 2 }) ∧
      (decode (Memory.read s.mem s.pc.toNat ++ Memory.read s.mem (s.pc.toNat + 1)) = .unimplemented →
        step s = .next { s with pc := s.pc + 2, status := .faulted .unimplementedOpcode })) ∧
    (4094 < s.pc.toNat → step s = .next { s with status := .faulted .fetchBounds })

/-- R15: `pc` moves by exactly 2 after every decoded instruction whatever it is, not when the fetch faults, and of all the
host's moves only `reset` writes it. -/
def Obligations.PcAdvancesByTwoPerDecodedInstruction : Prop :=
  ∀ s t : State, step s = .next t →
    (s.status = .running → s.pc.toNat ≤ 4094 → t.pc = s.pc + 2) ∧
    (s.status = .running → 4094 < s.pc.toNat → t.pc = s.pc) ∧
    (s.status ≠ .running → t.pc = s.pc ∨ (t.pc = 0 ∧ s.pending.head? = some .reset))

/-! ### The instructions -/

/-- R110: HALT is the word 0000 and sets `status` to Halted, writing nothing else; so a running core that fetches two
zero bytes halts, `pc` past them; and it is the only successful exit: a running step that ends in Halted fetched 0000. -/
def Obligations.HaltEndsTheRun : Prop :=
  encode .halt = 0x0000#16 ∧ decode 0x0000#16 = .encoded .halt ∧
    (∀ s : State, ∃ t, exec .halt s = .next t ∧ t.status = .halted ∧ OnlyStatusChanged s t) ∧
    (∀ s : State, s.status = .running → s.pc.toNat ≤ 4094 → Memory.read s.mem s.pc.toNat = 0 →
      Memory.read s.mem (s.pc.toNat + 1) = 0 → step s = .next { s with pc := s.pc + 2, status := .halted }) ∧
    ∀ s t : State, s.status = .running → step s = .next t → t.status = .halted → fetch s = .ok 0x0000#16

/-- R111: the Unimplemented tag is always the fault UnimplementedOpcode, and nothing but `status` changes; in a run a word
that no row of the opcode table takes ends that way, with `pc` at the word's address plus 2. -/
def Obligations.UnimplementedRaisesTheFault : Prop :=
  (∀ s : State, ∃ t, execute .unimplemented s = .next t ∧ t.status = .faulted .unimplementedOpcode ∧
    OnlyStatusChanged s t) ∧
  ∀ s : State, s.status = .running → s.pc.toNat ≤ 4094 →
    (∀ row ∈ tableRows, (Memory.read s.mem s.pc.toNat ++ Memory.read s.mem (s.pc.toNat + 1)) &&& row.2 ≠ row.1) →
    ∃ t, step s = .next t ∧ t.pc = s.pc + 2 ∧ t.status = .faulted .unimplementedOpcode ∧
      OnlyStatusChanged { s with pc := s.pc + 2 } t

/-- R112: ClearScreen turns every pixel off and changes nothing else. It is reached by the Operation value alone (D1, D12;
log 11). -/
def Obligations.ClearScreenTurnsEveryPixelOff : Prop :=
  ∀ s : State, ∃ t, execute .clearScreen s = .next t ∧ (∀ (r : Fin 32) (c : Fin 64), t.disp[r][c] = false) ∧
    t.v = s.v ∧ t.pc = s.pc ∧ (∀ a, Memory.read t.mem a = Memory.read s.mem a) ∧ t.stack = s.stack ∧ t.sp = s.sp ∧
    t.status = s.status ∧ t.pending = s.pending ∧ t.draws = s.draws

/-- R120: LDI Vx, kk is the word 6xkk and puts the literal into `V[x]`, for every `x`, 15 included, whatever `V[x]` held;
nothing else changes. -/
def Obligations.LoadImmediateWritesTheLiteral : Prop :=
  ∀ (x : RegIdx) (byte : Byte), decode (0x6#4 ++ BitVec.ofNat 4 x.val ++ byte) = .encoded (.ldi x byte) ∧
    ∀ s : State, ∃ t, exec (.ldi x byte) s = .next t ∧ t.v[x] = byte ∧ OnlyTheseRegsChanged [x] s t

/-- R121: ADDI Vx, kk is the word 7xkk and adds the literal modulo 256; `V[15]` is untouched even when the sum exceeds 255,
unless it is `V[x]` itself. -/
def Obligations.AddImmediateWrapsWithoutFlag : Prop :=
  ∀ (x : RegIdx) (byte : Byte), decode (0x7#4 ++ BitVec.ofNat 4 x.val ++ byte) = .encoded (.addi x byte) ∧
    ∀ s : State, ∃ t, exec (.addi x byte) s = .next t ∧ t.v[x].toNat = (s.v[x].toNat + byte.toNat) % 256 ∧
      OnlyTheseRegsChanged [x] s t

/-- R130: MOV Vx, Vy is the word 8xy0 and copies `V[y]` into `V[x]`; nothing else changes, `V[y]` included. -/
def Obligations.CopyOverwritesTheDestination : Prop :=
  ∀ x y : RegIdx,
    decode (0x8#4 ++ BitVec.ofNat 4 x.val ++ BitVec.ofNat 4 y.val ++ 0x0#4) = .encoded (.mov x y) ∧
    ∀ s : State, ∃ t, exec (.mov x y) s = .next t ∧ t.v[x] = s.v[y] ∧ OnlyTheseRegsChanged [x] s t

/-- R131 where the destination is not the flag register: `V[x]` gets the wrapped sum; `V[15]` becomes 1 when the true sum
exceeds 255 and otherwise keeps its byte; nothing else changes. -/
def Obligations.AddWrapsAndSetsTheCarry : Prop :=
  ∀ (x y : RegIdx) (s : State), x ≠ 15 → ∃ t, exec (.add x y) s = .next t ∧
    t.v[x].toNat = (s.v[x].toNat + s.v[y].toNat) % 256 ∧
    (255 < s.v[x].toNat + s.v[y].toNat → t.v[(15 : RegIdx)] = 1) ∧
    (s.v[x].toNat + s.v[y].toNat ≤ 255 → t.v[(15 : RegIdx)] = s.v[(15 : RegIdx)]) ∧
    OnlyTheseRegsChanged [x, 15] s t

/-- ADD into the flag register: the wrapped sum stands and a carry is lost. That the flag is written before the result is
the spec's own decision D3 (log 7), no rule of its source. -/
def Obligations.AddIntoTheFlagRegisterLeavesTheSum : Prop :=
  ∀ (y : RegIdx) (s : State), ∃ t, exec (.add 15 y) s = .next t ∧
    t.v[(15 : RegIdx)].toNat = (s.v[(15 : RegIdx)].toNat + s.v[y].toNat) % 256 ∧ OnlyTheseRegsChanged [15] s t

/-- R132 where the destination is not the flag register: `V[x]` gets `V[x] - V[y]` modulo 256; `V[15]` becomes 1 when
`V[y] > V[x]` and otherwise keeps its byte; nothing else changes. -/
def Obligations.SubWrapsAndSetsTheBorrow : Prop :=
  ∀ (x y : RegIdx) (s : State), x ≠ 15 → ∃ t, exec (.sub x y) s = .next t ∧
    t.v[x].toNat = (s.v[x].toNat + 256 - s.v[y].toNat) % 256 ∧
    (s.v[x].toNat < s.v[y].toNat → t.v[(15 : RegIdx)] = 1) ∧
    (s.v[y].toNat ≤ s.v[x].toNat → t.v[(15 : RegIdx)] = s.v[(15 : RegIdx)]) ∧
    OnlyTheseRegsChanged [x, 15] s t

/-- SUB into the flag register: the wrapped difference stands and a borrow is lost. The order of the two writes is the
spec's own decision D3 (log 7), no rule of its source. -/
def Obligations.SubIntoTheFlagRegisterLeavesTheDifference : Prop :=
  ∀ (y : RegIdx) (s : State), ∃ t, exec (.sub 15 y) s = .next t ∧
    t.v[(15 : RegIdx)].toNat = (s.v[(15 : RegIdx)].toNat + 256 - s.v[y].toNat) % 256 ∧
    OnlyTheseRegsChanged [15] s t

/-- R133: the two tests are the ninth bits of the 9-bit sum and difference. -/
def Obligations.CarryAndBorrowAreTheNinthBits : Prop :=
  ∀ a b : Byte, carries a b = (a.setWidth 9 + b.setWidth 9).getLsbD 8 ∧
    borrows a b = (a.setWidth 9 - b.setWidth 9).getLsbD 8

/-- R61: ADDI Vx, 0 and MOV Vx, Vx change nothing; SUB Vx, Vx makes `V[x]` 0 without touching the flag (for `x = 15` the
register is the flag). -/
def Obligations.TheIdiomsDoWhatTheyAreNamedFor : Prop :=
  ∀ (x : RegIdx) (s : State), exec (.addi x 0) s = .next s ∧ exec (.mov x x) s = .next s ∧
    ∃ t, exec (.sub x x) s = .next t ∧ t.v[x] = 0 ∧ OnlyTheseRegsChanged [x] s t

/-! ### Rules about every operation -/

/-- R11: as a flag, `V[15]` is only ever set: an instruction whose destination is another register leaves it or makes it 1,
and only ADD and SUB do the latter. -/
def Obligations.TheFlagIsOnlyEverSet : Prop :=
  ∀ (i : Instr) (s t : State), exec i s = .next t → destOf i ≠ some 15 →
    t.v[(15 : RegIdx)] = s.v[(15 : RegIdx)] ∨
      (t.v[(15 : RegIdx)] = 1 ∧ ∃ x y, i = .add x y ∨ i = .sub x y)

/-- R13: no operation writes a register that is neither its destination nor the flag. -/
def Obligations.OnlyDestinationAndFlagAreWritten : Prop :=
  ∀ (op : Operation) (s t : State), execute op s = .next t → ∀ k : RegIdx, k ≠ 15 →
    (∀ i, op = .encoded i → destOf i ≠ some k) → t.v[k] = s.v[k]

/-- R18, R19, R20, R44, R101: no operation writes memory, the call stack, its pointer or (in dispatch) `pc`; only ClearScreen
writes the display; only Halt and Unimplemented write `status`. -/
def Obligations.OperationsLeaveMemoryStackAndPc : Prop :=
  ∀ (op : Operation) (s t : State), execute op s = .next t →
    t.pc = s.pc ∧ (∀ a, Memory.read t.mem a = Memory.read s.mem a) ∧ t.stack = s.stack ∧ t.sp = s.sp ∧
    t.pending = s.pending ∧ t.draws = s.draws ∧ (op ≠ .clearScreen → t.disp = s.disp) ∧
    (op ≠ .encoded .halt → op ≠ .unimplemented → t.status = s.status)

/-- R95, R96, R149: every Operation has a next state in every state, and so has every step: a fault is a state, not a stop of
the model (log 5), and a stopped core keeps its state (log 4). -/
def Obligations.EveryOperationAndStepCompletes : Prop :=
  (∀ (op : Operation) (s : State), ∃ t, execute op s = .next t) ∧ ∀ s : State, ∃ t, step s = .next t

/-- R43: memory is constant for the whole of a run. -/
def Obligations.RunningStepsLeaveMemory : Prop :=
  ∀ (n : Nat) (s t : State), (∀ m < n, ∀ u, Host.Core.run Sys2Proof.core m s = .next u → u.status = .running) →
    Host.Core.run Sys2Proof.core n s = .next t → ∀ a, Memory.read t.mem a = Memory.read s.mem a

/-- R18, R19, R20: nothing reads the call stack, its pointer or the display: a running core whose stack, pointer and display are
replaced goes the same way in everything else. -/
def Obligations.StackAndDisplayAreNeverRead : Prop :=
  ∀ (s t : State) (stack : Vector Word 16) (sp : BitVec 4) (disp : Display), s.status = .running → step s = .next t →
    step { s with stack := stack, sp := sp, disp := disp } = .next { t with stack := stack, sp := sp, disp := disp }

/-- R20: nothing but a launch turns a pixel on: a pixel that is off stays off under every step. -/
def Obligations.NoStepTurnsAPixelOn : Prop :=
  ∀ s t : State, step s = .next t → ∀ (r : Fin 32) (c : Fin 64), s.disp[r][c] = false → t.disp[r][c] = false

/-! ### The invariant and the reachable states -/

/-- The power-on state has the invariant. -/
def Obligations.CreationHasTheInvariant : Prop := State.reset.Inv

/-- R16, and the memory's canonical form (the model's choice, log 14): every step, the core's or the host's, keeps memory
canonical and `pc` even and at most 4096, from every state that has it so. -/
def Obligations.EveryStepKeepsTheInvariant : Prop :=
  ∀ s t : State, s.Inv → step s = .next t → t.Inv

/-- R16, R18, R19: in every state a core can be in, whatever the display at launch and whatever the host's commands, `pc` is even
and at most 4096 and the call stack and its pointer are zero. -/
def Obligations.ReachableStatesKeepPcAndStack : Prop :=
  ∀ s : State, Reachable s → s.pc.toNat % 2 = 0 ∧ s.pc.toNat ≤ 4096 ∧ s.StackZero

/-- R141: a running core whose `pc` or `pc + 1` is out of bounds latches FetchBounds, changing `status` alone; and from creation
that happens at `pc` = 4096 only. -/
def Obligations.FetchFaultsOnlyAtTheEndOfMemory : Prop :=
  (∀ s : State, s.status = .running → 4095 < s.pc.toNat ∨ 4095 < (s.pc + 1).toNat →
    step s = .next { s with status := .faulted .fetchBounds }) ∧
  ∀ s t : State, Reachable s → s.status = .running → step s = .next t → t.status = .faulted .fetchBounds →
    s.pc = 4096 ∧ t = { s with status := .faulted .fetchBounds }

/-- R100, R96: every run ends: after at most (4096 - pc)/2 + 1 steps, so never more than 2049, the core is Halted or has latched
one of the two faults of a run. -/
def Obligations.EveryRunEnds : Prop :=
  ∀ s : State, s.status = .running → ∃ n t, n ≤ (4096 - s.pc.toNat) / 2 + 1 ∧ n ≤ 2049 ∧
    Host.Core.run Sys2Proof.core n s = .next t ∧
    (t.status = .halted ∨ t.status = .faulted .unimplementedOpcode ∨ t.status = .faulted .fetchBounds)

/-- R147: the address a fault of a run is about can be read off the state it leaves, and for UnimplementedOpcode the word at
`pc - 2` and `pc - 1` there is the one the step fetched, and decodes to Unimplemented. -/
def Obligations.FaultAddressIsRecoverable : Prop :=
  ∀ (s t : State) (kind : Fault), s.status = .running → step s = .next t → t.status = .faulted kind →
    t.faultAddress = some s.pc ∧
    (kind = .unimplementedOpcode →
      fetch s = .ok (Memory.read t.mem (t.pc - 2).toNat ++ Memory.read t.mem (t.pc - 1).toNat) ∧
      decode (Memory.read t.mem (t.pc - 2).toNat ++ Memory.read t.mem (t.pc - 1).toNat) = .unimplemented)

/-! ### The host's commands -/

/-- R171, R172, R178: `reset` is accepted in every status but Running; it zeroes everything except the display. That `sp` and
`status` are among it is the spec's decision D8 and D4; that the command takes one step is the model's (log 3). -/
def Obligations.ResetZeroesAllButTheDisplay : Prop :=
  ∀ (s : State) (rest : List Command), s.status ≠ .running → s.pending = .reset :: rest →
    ∃ t, step s = .next t ∧ (∀ k : RegIdx, t.v[k] = 0) ∧ t.pc = 0 ∧ (∀ a, Memory.read t.mem a = 0) ∧
      (∀ k : Fin 16, t.stack[k] = 0) ∧ t.sp = 0 ∧ t.status = .idle ∧ t.disp = s.disp ∧ t.pending = rest

/-- R172: `reset` leaves every pixel as it was, and the only step that writes the display is a ClearScreen. That this one is a
command presented at the direct-dispatch port to a core that is not Running is the spec's decision D1 and D12 (log 11), and
that a command is a step the model's choice (log 3). -/
def Obligations.TheDisplayPersistsAcrossReset : Prop :=
  (∀ (s t : State), s.status ≠ .running → s.pending.head? = some .reset → step s = .next t →
    ∀ (r : Fin 32) (c : Fin 64), t.disp[r][c] = s.disp[r][c]) ∧
  State.reset.disp = Display.allOff ∧
  (∀ s t : State, step s = .next t → t.disp ≠ s.disp →
    t.disp = Display.allOff ∧ s.pending.head? = some (.execute .clearScreen) ∧ s.status ≠ .running)

/-- R173: presenting `reset` twice in a row ends where presenting it once does. -/
def Obligations.ResetIsIdempotent : Prop :=
  ∀ (s : State) (rest : List Command), s.status ≠ .running → ∃ t,
    Host.Core.run Sys2Proof.core 1 { s with pending := .reset :: rest } = .next t ∧
    Host.Core.run Sys2Proof.core 2 { s with pending := .reset :: .reset :: rest } = .next t

/-- R174, R176: an accepted `load` of at most 4096 bytes puts them at addresses 0 up, leaves every other byte at its prior value
and changes nothing else. That it is one atomic step is the spec's decision D16. -/
def Obligations.LoadCopiesTheImage : Prop :=
  ∀ (s : State) (bytes : List Byte) (rest : List Command), s.status = .idle ∨ s.status = .halted →
    Memory.wf s.mem = true → s.pending = .load bytes :: rest → bytes.length ≤ 4096 →
    ∃ t, step s = .next t ∧ (∀ (i : Nat) (h : i < bytes.length), Memory.read t.mem i = bytes[i]) ∧
      (∀ a, bytes.length ≤ a → Memory.read t.mem a = Memory.read s.mem a) ∧
      t.v = s.v ∧ t.pc = s.pc ∧ t.stack = s.stack ∧ t.sp = s.sp ∧ t.disp = s.disp ∧ t.status = s.status ∧
      t.pending = rest ∧ t.draws = s.draws

/-- R175: an accepted `load` of more than 4096 bytes latches LoadBounds and leaves everything but memory as it was. What memory
then holds is unspecified (D7); the statement holds whatever it is (log 1). -/
def Obligations.LoadThatIsTooLongFaults : Prop :=
  ∀ (s : State) (bytes : List Byte) (rest : List Command), s.status = .idle ∨ s.status = .halted →
    s.pending = .load bytes :: rest → 4096 < bytes.length →
    ∃ t, step s = .next t ∧ t.status = .faulted .loadBounds ∧ t.v = s.v ∧ t.pc = s.pc ∧ t.stack = s.stack ∧
      t.sp = s.sp ∧ t.disp = s.disp ∧ t.pending = rest ∧ Memory.wf t.mem = true

/-- R90: `run` starts at the current `pc` and resets nothing. That accepting it is a step of its own is the model's choice
(log 6); `status` is the spec's decision D4. -/
def Obligations.RunStartsAtTheCurrentPc : Prop :=
  ∀ (s : State) (rest : List Command), s.status = .idle ∨ s.status = .halted → s.pending = .run :: rest →
    step s = .next { s with status := .running, pending := rest }

/-- R98: the direct-dispatch port performs one Operation with no fetch and no `pc` advance. The port is the spec's decision
D12 (log 11). -/
def Obligations.DirectDispatchDoesNotFetch : Prop :=
  ∀ (s : State) (op : Operation) (rest : List Command), s.status = .idle ∨ s.status = .halted →
    s.pending = .execute op :: rest →
    step s = execute op { s with pending := rest } ∧ ∃ t, step s = .next t ∧ t.pc = s.pc

/-- R151, R178: a faulted core accepts `reset` only: any other command changes nothing, and no step but one that presents a
`reset` takes the fault away. The acceptance table is the spec's decision D6 (log 12). -/
def Obligations.AFaultedCoreAcceptsOnlyReset : Prop :=
  ∀ (s : State) (kind : Fault), s.status = .faulted kind →
    (∀ c rest, s.pending = c :: rest → c ≠ .reset → step s = .next { s with pending := rest }) ∧
    ∀ t, step s = .next t → t.status = .faulted kind ∨ s.pending.head? = some .reset

/-- R97, R178: the host has no move while the core is Running: with other commands pending, a running core goes exactly the
same way. -/
def Obligations.TheHostHasNoMoveDuringARun : Prop :=
  ∀ (s t : State) (commands : List Command), s.status = .running → step s = .next t →
    t.pending = s.pending ∧ step { s with pending := commands } = .next { t with pending := commands }

/-- R177: from creation, `load` then `run` starts the core at address 0 with the image in memory, zero behind it and every
register zero. -/
def Obligations.BootRunsFromAddressZero : Prop :=
  ∀ (dispLaunch : Display) (bytes : List Byte), bytes.length ≤ 4096 →
    ∃ t, Host.Core.run Sys2Proof.core 2 { State.launch dispLaunch with pending := [.load bytes, .run] } = .next t ∧
      t.status = .running ∧ t.pc = 0 ∧ (∀ k : RegIdx, t.v[k] = 0) ∧ t.disp = dispLaunch ∧
      (∀ (i : Nat) (h : i < bytes.length), Memory.read t.mem i = bytes[i]) ∧
      (∀ a, bytes.length ≤ a → Memory.read t.mem a = 0)

/-! ### Memory as data -/

/-- The model's representation (log 14): two canonical memories that read the same at every address are the same data. -/
def Obligations.CanonicalMemoriesAreTheirContents : Prop :=
  ∀ m m' : Memory, Memory.wf m = true → Memory.wf m' = true → (∀ a, Memory.read m a = Memory.read m' a) → m = m'
end

