-- ==== Sys2Proof/Laws/Decode.lean ====
section
/-! SUPPORT. The decoder's fields and the encoder as arithmetic on natural numbers (R51, R76). -/

namespace Sys2Proof

/-! ### The fields -/

theorem opMajor_toNat (w : Word) : (opMajor w).toNat = w.toNat / 4096 := by
  have := w.isLt
  simp only [opMajor, BitVec.extractLsb'_toNat, Nat.shiftRight_eq_div_pow]
  omega

theorem opMinor_toNat (w : Word) : (opMinor w).toNat = w.toNat % 16 := by
  simp only [opMinor, BitVec.extractLsb'_toNat, Nat.shiftRight_zero, Nat.reducePow]

theorem fieldX_val (w : Word) : (fieldX w).val = w.toNat / 256 % 16 := by
  rw [fieldX, BitVec.val_toFin, BitVec.extractLsb'_toNat, Nat.shiftRight_eq_div_pow]

theorem fieldY_val (w : Word) : (fieldY w).val = w.toNat / 16 % 16 := by
  rw [fieldY, BitVec.val_toFin, BitVec.extractLsb'_toNat, Nat.shiftRight_eq_div_pow]

theorem fieldByte_toNat (w : Word) : (fieldByte w).toNat = w.toNat % 256 := by
  simp only [fieldByte, BitVec.extractLsb'_toNat, Nat.shiftRight_zero, Nat.reducePow]

theorem fieldAddr_toNat (w : Word) : (fieldAddr w).toNat = w.toNat % 4096 := by
  simp only [fieldAddr, BitVec.extractLsb'_toNat, Nat.shiftRight_zero, Nat.reducePow]

/-! ### Words as numbers -/

theorem regField_toNat (x : RegIdx) : (regField x).toNat = x.val := by
  have := x.isLt
  simp [regField]

/-- Concatenation is place value. -/
theorem toNat_append_add {m n : Nat} (a : BitVec m) (b : BitVec n) : (a ++ b).toNat = a.toNat * 2 ^ n + b.toNat := by
  rw [BitVec.toNat_append, ← Nat.shiftLeft_add_eq_or_of_lt b.isLt, Nat.shiftLeft_eq]

theorem wordOfBytes_toNat (b1 b2 : Byte) : (wordOfBytes b1 b2).toNat = 256 * b1.toNat + b2.toNat := by
  refine (toNat_append_add b1 b2).trans ?_
  omega

/-- Format XKK as a number (R53). -/
theorem formatXKK_toNat (op : BitVec 4) (x : RegIdx) (byte : Byte) :
    (op ++ regField x ++ byte).toNat = 4096 * op.toNat + 256 * x.val + byte.toNat := by
  rw [toNat_append_add, toNat_append_add, regField_toNat]
  omega

/-- Format XYN as a number (R53). -/
theorem formatXYN_toNat (op : BitVec 4) (x y : RegIdx) (minor : BitVec 4) :
    (op ++ regField x ++ regField y ++ minor).toNat = 4096 * op.toNat + 256 * x.val + 16 * y.val + minor.toNat := by
  rw [toNat_append_add, toNat_append_add, toNat_append_add, regField_toNat, regField_toNat]
  omega

/-- The encoder as numbers (R76). -/
theorem encode_toNat (i : Instr) : (encode i).toNat = match i with
    | .halt => 0
    | .ldi x byte => 0x6000 + 256 * x.val + byte.toNat
    | .addi x byte => 0x7000 + 256 * x.val + byte.toNat
    | .mov x y => 0x8000 + 256 * x.val + 16 * y.val
    | .add x y => 0x8004 + 256 * x.val + 16 * y.val
    | .sub x y => 0x8005 + 256 * x.val + 16 * y.val := by
  cases i with
  | halt => rfl
  | ldi x byte => exact formatXKK_toNat 0x6#4 x byte
  | addi x byte => exact formatXKK_toNat 0x7#4 x byte
  | mov x y => exact formatXYN_toNat 0x8#4 x y 0x0#4
  | add x y => refine (formatXYN_toNat 0x8#4 x y 0x4#4).trans ?_; simp; omega
  | sub x y => refine (formatXYN_toNat 0x8#4 x y 0x5#4).trans ?_; simp; omega

end Sys2Proof
end

