-- ==== Sys2Proof/Laws/Memory.lean ====
section
/-! SUPPORT. The laws of the memory array: read after write, and that every operation keeps the canonical form. -/

namespace Sys2Proof.Machine.Memory

@[simp] theorem read_nil (a : Nat) : read [] a = 0 := rfl

@[simp] theorem wf_nil : wf [] = true := rfl

theorem wfFrom_cons {lo k : Nat} {b : Byte} {m : Memory} :
    wfFrom lo ((k, b) :: m) = true ↔ lo ≤ k ∧ k < 4096 ∧ b ≠ 0 ∧ wfFrom (k + 1) m = true := by
  rw [wfFrom, Bool.and_eq_true, Bool.and_eq_true, Bool.and_eq_true, decide_eq_true_iff, decide_eq_true_iff,
    decide_eq_true_iff, and_assoc, and_assoc]
  rfl

/-- A lower start is a weaker demand. -/
theorem wfFrom_mono {lo lo' : Nat} {m : Memory} (h : wfFrom lo m = true) (hl : lo' ≤ lo) : wfFrom lo' m = true := by
  cases m with
  | nil => rfl
  | cons c m =>
    obtain ⟨k, b⟩ := c
    rw [wfFrom_cons] at h ⊢
    exact ⟨by omega, h.2⟩

/-- Below the start of a canonical memory nothing is listed. -/
theorem read_below {lo a : Nat} {m : Memory} (h : wfFrom lo m = true) (ha : a < lo) : read m a = 0 := by
  induction m generalizing lo with
  | nil => rfl
  | cons c m ih =>
    obtain ⟨k, b⟩ := c
    rw [wfFrom_cons] at h
    rw [read, if_neg (by omega)]
    exact ih h.2.2.2 (by omega)

/-- Outside the array nothing is listed. -/
theorem read_above {lo a : Nat} {m : Memory} (h : wfFrom lo m = true) (ha : 4096 ≤ a) : read m a = 0 := by
  induction m generalizing lo with
  | nil => rfl
  | cons c m ih =>
    obtain ⟨k, b⟩ := c
    rw [wfFrom_cons] at h
    rw [read, if_neg (by omega)]
    exact ih h.2.2.2

/-- A write inside the array keeps the canonical form. -/
theorem wfFrom_write {lo a : Nat} {b : Byte} {m : Memory} (h : wfFrom lo m = true) (hlo : lo ≤ a) (ha : a < 4096) :
    wfFrom lo (write m a b) = true := by
  induction m generalizing lo with
  | nil =>
    rw [write]
    split_ifs with hb
    · rfl
    · exact wfFrom_cons.mpr ⟨hlo, ha, hb, rfl⟩
  | cons c m ih =>
    obtain ⟨k, v⟩ := c
    have h' := wfFrom_cons.mp h
    obtain ⟨h1, h2, h3, h4⟩ := h'
    rw [write]
    split_ifs with hlt hb heq hb
    · exact h
    · rw [wfFrom_cons, wfFrom_cons]
      exact ⟨hlo, ha, hb, by omega, h2, h3, h4⟩
    · exact wfFrom_mono h4 (by omega)
    · rw [wfFrom_cons]
      exact ⟨hlo, ha, hb, by simpa [heq] using h4⟩
    · rw [wfFrom_cons]
      exact ⟨h1, h2, h3, ih h4 (by omega)⟩

theorem wf_write {a : Nat} {b : Byte} {m : Memory} (h : wf m = true) (ha : a < 4096) : wf (write m a b) = true :=
  wfFrom_write h (Nat.zero_le a) ha

/-- Read after write (R41): the written cell holds the new byte, every other its old one. -/
theorem read_write_from {lo a : Nat} {b : Byte} {m : Memory} (h : wfFrom lo m = true) (x : Nat) :
    read (write m a b) x = if x = a then b else read m x := by
  induction m generalizing lo with
  | nil =>
    rw [write]
    by_cases hb : b = unlisted
    · rw [if_pos hb]
      split_ifs with hx
      · exact hb.symm
      · rfl
    · rw [if_neg hb]; rfl
  | cons c m ih =>
    obtain ⟨k, v⟩ := c
    have h' := wfFrom_cons.mp h
    obtain ⟨h1, h2, h3, h4⟩ := h'
    rw [write]
    by_cases hlt : a < k
    · have hlow : read ((k, v) :: m) a = 0 := read_below (wfFrom_cons.mpr ⟨Nat.le_refl k, h2, h3, h4⟩) hlt
      rw [if_pos hlt]
      by_cases hb : b = unlisted
      · rw [if_pos hb]
        split_ifs with hx
        · rw [hx, hlow]; exact hb.symm
        · rfl
      · rw [if_neg hb, read]
    · rw [if_neg hlt]
      by_cases heq : a = k
      · subst heq
        have hlow : read m a = 0 := read_below h4 (by omega)
        rw [if_pos rfl]
        by_cases hb : b = unlisted
        · rw [if_pos hb]
          split_ifs with hx
          · rw [hx, hlow]; exact hb.symm
          · rw [read, if_neg hx]
        · rw [if_neg hb, read, read]
          split_ifs <;> rfl
      · rw [if_neg heq, read, read, ih h4]
        split_ifs <;> first | rfl | omega

theorem read_write {a : Nat} {b : Byte} {m : Memory} (h : wf m = true) (x : Nat) :
    read (write m a b) x = if x = a then b else read m x :=
  read_write_from h x

/-- A table of cells is in canonical form. -/
theorem wfFrom_tabulateFrom (f : Nat → Byte) (a n : Nat) (h : a + n ≤ 4096) :
    wfFrom a (tabulateFrom f a n) = true := by
  induction n generalizing a with
  | zero => rfl
  | succ n ih =>
    have hrest := ih (a + 1) (by omega)
    rw [tabulateFrom]
    split_ifs with hf
    · exact wfFrom_mono hrest (by omega)
    · exact wfFrom_cons.mpr ⟨Nat.le_refl a, by omega, hf, hrest⟩

/-- The cells of a table hold what the table says. -/
theorem read_tabulateFrom (f : Nat → Byte) (a n x : Nat) (h : a + n ≤ 4096) :
    read (tabulateFrom f a n) x = if a ≤ x ∧ x < a + n then f x else 0 := by
  induction n generalizing a with
  | zero => simp [tabulateFrom]
  | succ n ih =>
    have hrest := ih (a + 1) (by omega)
    rw [tabulateFrom]
    by_cases hx : x = a
    · subst hx
      split_ifs with hf h1
      · rw [hrest, if_neg (by omega), hf, unlisted]
      · omega
      · simp [read]
      · omega
    · have hiff : (a + 1 ≤ x ∧ x < a + 1 + n) ↔ (a ≤ x ∧ x < a + (n + 1)) := by omega
      split_ifs with hf h1 h1
      · rw [hrest, if_pos (hiff.mpr h1)]
      · rw [hrest, if_neg (fun h => h1 (hiff.mp h))]
      · rw [read, if_neg hx, hrest, if_pos (hiff.mpr h1)]
      · rw [read, if_neg hx, hrest, if_neg (fun h => h1 (hiff.mp h))]

end Sys2Proof.Machine.Memory
end

