-- ==== Sys2Proof/Laws/State.lean ====
section
/-! SUPPORT. Each named update of State, field by field; later proofs cite these instead of unfolding a record update. -/

namespace Sys2Proof.Machine

variable (s : State)

/-! ### setReg -/

@[simp] theorem setReg_v (x : RegIdx) (b : Byte) : (s.setReg x b).v = s.v.set x b := rfl
@[simp] theorem setReg_pc (x : RegIdx) (b : Byte) : (s.setReg x b).pc = s.pc := rfl
@[simp] theorem setReg_mem (x : RegIdx) (b : Byte) : (s.setReg x b).mem = s.mem := rfl
@[simp] theorem setReg_stack (x : RegIdx) (b : Byte) : (s.setReg x b).stack = s.stack := rfl
@[simp] theorem setReg_sp (x : RegIdx) (b : Byte) : (s.setReg x b).sp = s.sp := rfl
@[simp] theorem setReg_disp (x : RegIdx) (b : Byte) : (s.setReg x b).disp = s.disp := rfl
@[simp] theorem setReg_status (x : RegIdx) (b : Byte) : (s.setReg x b).status = s.status := rfl
@[simp] theorem setReg_pending (x : RegIdx) (b : Byte) : (s.setReg x b).pending = s.pending := rfl
@[simp] theorem setReg_draws (x : RegIdx) (b : Byte) : (s.setReg x b).draws = s.draws := rfl

/-! ### advance -/

@[simp] theorem advance_v : (s.advance).v = s.v := rfl
@[simp] theorem advance_pc : (s.advance).pc = s.pc + Config.pcStep := rfl
@[simp] theorem advance_mem : (s.advance).mem = s.mem := rfl
@[simp] theorem advance_stack : (s.advance).stack = s.stack := rfl
@[simp] theorem advance_sp : (s.advance).sp = s.sp := rfl
@[simp] theorem advance_disp : (s.advance).disp = s.disp := rfl
@[simp] theorem advance_status : (s.advance).status = s.status := rfl
@[simp] theorem advance_pending : (s.advance).pending = s.pending := rfl
@[simp] theorem advance_draws : (s.advance).draws = s.draws := rfl

/-! ### setStatus -/

@[simp] theorem setStatus_v (st : Status) : (s.setStatus st).v = s.v := rfl
@[simp] theorem setStatus_pc (st : Status) : (s.setStatus st).pc = s.pc := rfl
@[simp] theorem setStatus_mem (st : Status) : (s.setStatus st).mem = s.mem := rfl
@[simp] theorem setStatus_stack (st : Status) : (s.setStatus st).stack = s.stack := rfl
@[simp] theorem setStatus_sp (st : Status) : (s.setStatus st).sp = s.sp := rfl
@[simp] theorem setStatus_disp (st : Status) : (s.setStatus st).disp = s.disp := rfl
@[simp] theorem setStatus_status (st : Status) : (s.setStatus st).status = st := rfl
@[simp] theorem setStatus_pending (st : Status) : (s.setStatus st).pending = s.pending := rfl
@[simp] theorem setStatus_draws (st : Status) : (s.setStatus st).draws = s.draws := rfl

/-! ### raise -/

@[simp] theorem raise_v (kind : Fault) : (raise kind s).v = s.v := rfl
@[simp] theorem raise_pc (kind : Fault) : (raise kind s).pc = s.pc := rfl
@[simp] theorem raise_mem (kind : Fault) : (raise kind s).mem = s.mem := rfl
@[simp] theorem raise_stack (kind : Fault) : (raise kind s).stack = s.stack := rfl
@[simp] theorem raise_sp (kind : Fault) : (raise kind s).sp = s.sp := rfl
@[simp] theorem raise_disp (kind : Fault) : (raise kind s).disp = s.disp := rfl
@[simp] theorem raise_status (kind : Fault) : (raise kind s).status = .faulted kind := rfl
@[simp] theorem raise_pending (kind : Fault) : (raise kind s).pending = s.pending := rfl
@[simp] theorem raise_draws (kind : Fault) : (raise kind s).draws = s.draws := rfl

/-! ### clearDisplay -/

@[simp] theorem clearDisplay_v : (s.clearDisplay).v = s.v := rfl
@[simp] theorem clearDisplay_pc : (s.clearDisplay).pc = s.pc := rfl
@[simp] theorem clearDisplay_mem : (s.clearDisplay).mem = s.mem := rfl
@[simp] theorem clearDisplay_stack : (s.clearDisplay).stack = s.stack := rfl
@[simp] theorem clearDisplay_sp : (s.clearDisplay).sp = s.sp := rfl
@[simp] theorem clearDisplay_disp : (s.clearDisplay).disp = Display.allOff := rfl
@[simp] theorem clearDisplay_status : (s.clearDisplay).status = s.status := rfl
@[simp] theorem clearDisplay_pending : (s.clearDisplay).pending = s.pending := rfl
@[simp] theorem clearDisplay_draws : (s.clearDisplay).draws = s.draws := rfl

/-! ### forgetMemory -/

@[simp] theorem forgetMemory_v : (s.forgetMemory).v = s.v := rfl
@[simp] theorem forgetMemory_pc : (s.forgetMemory).pc = s.pc := rfl
@[simp] theorem forgetMemory_mem : (s.forgetMemory).mem = Memory.tabulateFrom (Config.unspecifiedByte s.draws) 0 Config.memSize := rfl
@[simp] theorem forgetMemory_stack : (s.forgetMemory).stack = s.stack := rfl
@[simp] theorem forgetMemory_sp : (s.forgetMemory).sp = s.sp := rfl
@[simp] theorem forgetMemory_disp : (s.forgetMemory).disp = s.disp := rfl
@[simp] theorem forgetMemory_status : (s.forgetMemory).status = s.status := rfl
@[simp] theorem forgetMemory_pending : (s.forgetMemory).pending = s.pending := rfl
@[simp] theorem forgetMemory_draws : (s.forgetMemory).draws = s.draws + 1 := rfl

/-! ### resetCommand -/

@[simp] theorem resetCommand_v : (resetCommand s).v = Vector.replicate 16 0 := rfl
@[simp] theorem resetCommand_pc : (resetCommand s).pc = Config.resetPc := rfl
@[simp] theorem resetCommand_mem : (resetCommand s).mem = [] := rfl
@[simp] theorem resetCommand_stack : (resetCommand s).stack = Vector.replicate 16 0 := rfl
@[simp] theorem resetCommand_sp : (resetCommand s).sp = 0 := rfl
@[simp] theorem resetCommand_disp : (resetCommand s).disp = s.disp := rfl
@[simp] theorem resetCommand_status : (resetCommand s).status = .idle := rfl
@[simp] theorem resetCommand_pending : (resetCommand s).pending = s.pending := rfl
@[simp] theorem resetCommand_draws : (resetCommand s).draws = s.draws := rfl

/-! ### runCommand -/

@[simp] theorem runCommand_v : (runCommand s).v = s.v := rfl
@[simp] theorem runCommand_pc : (runCommand s).pc = s.pc := rfl
@[simp] theorem runCommand_mem : (runCommand s).mem = s.mem := rfl
@[simp] theorem runCommand_stack : (runCommand s).stack = s.stack := rfl
@[simp] theorem runCommand_sp : (runCommand s).sp = s.sp := rfl
@[simp] theorem runCommand_disp : (runCommand s).disp = s.disp := rfl
@[simp] theorem runCommand_status : (runCommand s).status = .running := rfl
@[simp] theorem runCommand_pending : (runCommand s).pending = s.pending := rfl
@[simp] theorem runCommand_draws : (runCommand s).draws = s.draws := rfl

/-! ### Registers -/

/-- A read after a write: the written register holds the new byte, every other its old one. -/
@[simp] theorem setReg_getElem (x k : RegIdx) (b : Byte) :
    (s.setReg x b).v[k] = if k = x then b else s.v[k] := by
  simp only [setReg_v, Fin.getElem_fin, Vector.getElem_set]
  by_cases h : k = x
  · simp [h]
  · have : x.val ≠ k.val := fun e => h (Fin.ext e.symm)
    simp [h, this]

@[simp] theorem reg_eq (x : RegIdx) : s.reg x = s.v[x] := rfl

/-- Writing back the value a register holds changes nothing. -/
theorem setReg_self (x : RegIdx) : s.setReg x s.v[x] = s := by
  simp [State.setReg]

/-! ### launch -/

@[simp] theorem launch_allOff : State.launch Display.allOff = State.reset := rfl

end Sys2Proof.Machine
end

