-- ==== Sys2Proof/Laws/Ops.lean ====
section
/-! SUPPORT. One lemma per shared operation, saying once all it can do; callers cite it and do not unfold the
operation. -/

namespace Sys2Proof.Machine

/-! ### The address decoder and the accesses -/

/-- The test on the top four bits is the range test 0 to 4095 (R31). -/
theorem inBounds_iff (a : Word) : inBounds a = true ↔ a.toNat < 4096 := by
  have : a.toNat < 65536 := a.isLt
  simp only [inBounds, beq_iff_eq, BitVec.toNat_eq, BitVec.extractLsb'_toNat, BitVec.toNat_ofNat,
    Nat.shiftRight_eq_div_pow]
  omega

theorem cellOf_lt (a : Word) : cellOf a < 4096 := (a.extractLsb' 0 12).isLt

theorem cellOf_eq {a : Word} (h : a.toNat < 4096) : cellOf a = a.toNat := by
  simp only [cellOf, BitVec.extractLsb'_toNat, Nat.shiftRight_zero]
  omega

theorem memRead_of_lt {a : Word} (s : State) (h : a.toNat < 4096) :
    memRead a s = .ok (Memory.read s.mem a.toNat) := by
  rw [memRead, if_pos ((inBounds_iff a).mpr h), cellOf_eq h]

theorem memRead_of_ge {a : Word} (s : State) (h : 4096 ≤ a.toNat) : memRead a s = .error .fetchBounds := by
  rw [memRead, if_neg (fun hb => absurd ((inBounds_iff a).mp hb) (by omega))]

theorem memWrite_of_lt {a : Word} (b : Byte) (s : State) (h : a.toNat < 4096) :
    memWrite a b s = .ok { s with mem := Memory.write s.mem a.toNat b } := by
  rw [memWrite, if_pos ((inBounds_iff a).mpr h), cellOf_eq h]

/-- All a fetch can do, by where `pc` is. -/
theorem fetch_eq (s : State) :
    fetch s = if s.pc.toNat ≤ 4094
      then .ok (wordOfBytes (Memory.read s.mem s.pc.toNat) (Memory.read s.mem (s.pc.toNat + 1)))
      else .error .fetchBounds := by
  have hpc : s.pc.toNat < 65536 := s.pc.isLt
  have h1 : (s.pc + 1).toNat = (s.pc.toNat + 1) % 65536 := by simp [BitVec.toNat_add]
  split_ifs with h
  · have h1' : (s.pc + 1).toNat = s.pc.toNat + 1 := by omega
    rw [fetch, memRead_of_lt s (by omega), memRead_of_lt s (by omega), h1']
  · by_cases h4 : s.pc.toNat = 4095
    · rw [fetch, memRead_of_lt s (by omega), memRead_of_ge s (by omega)]
    · rw [fetch, memRead_of_ge s (by omega)]

/-- `copyIn` inside the array always succeeds, and changes memory alone. -/
theorem copyIn_ok (bytes : List Byte) (a : Word) (s : State) (h : a.toNat + bytes.length ≤ 4096) :
    ∃ m, copyIn a bytes s = .ok { s with mem := m } ∧
      (Memory.wf s.mem = true → Memory.wf m = true ∧ ∀ x, Memory.read m x =
        if h : a.toNat ≤ x ∧ x < a.toNat + bytes.length then bytes[x - a.toNat] else Memory.read s.mem x) := by
  induction bytes generalizing a s with
  | nil => exact ⟨s.mem, rfl, fun hw => ⟨hw, fun x => by rw [dif_neg]; simp⟩⟩
  | cons b rest ih =>
    rw [List.length_cons] at h
    have hlt : a.toNat < 4096 := by omega
    rw [copyIn, memWrite_of_lt b s hlt]
    cases rest with
    | nil =>
      refine ⟨Memory.write s.mem a.toNat b, rfl, fun hw => ⟨Memory.wf_write hw hlt, fun x => ?_⟩⟩
      rw [Memory.read_write hw]
      by_cases hx : x = a.toNat
      · subst hx; simp
      · rw [if_neg hx, dif_neg]; simp; omega
    | cons c rest =>
      rw [List.length_cons] at h
      have ha : (a + 1).toNat = a.toNat + 1 := by
        rw [BitVec.toNat_add, show (1 : Word).toNat = 1 from rfl]; omega
      obtain ⟨m, hm, hspec⟩ := ih (a + 1) { s with mem := Memory.write s.mem a.toNat b }
        (by rw [ha, List.length_cons]; omega)
      refine ⟨m, hm, fun hw => ?_⟩
      obtain ⟨hwf, hread⟩ := hspec (Memory.wf_write hw hlt)
      refine ⟨hwf, fun x => ?_⟩
      rw [hread x]
      simp only [ha, List.length_cons]
      by_cases h1 : a.toNat + 1 ≤ x ∧ x < a.toNat + 1 + (rest.length + 1)
      · rw [dif_pos h1, dif_pos (by omega)]
        have : x - a.toNat = (x - (a.toNat + 1)) + 1 := by omega
        simp only [this, List.getElem_cons_succ]
      · rw [dif_neg h1, Memory.read_write hw]
        by_cases hx : x = a.toNat
        · subst hx; simp
        · rw [if_neg hx, dif_neg (by omega)]

/-! ### Flags and arithmetic -/

theorem trunc8_sum9 (a b : Byte) : trunc8 (sum9 a b) = a + b := by
  apply BitVec.eq_of_toNat_eq
  have := a.isLt; have := b.isLt
  simp only [trunc8, sum9, zext9, BitVec.toNat_setWidth, BitVec.toNat_add]
  omega

theorem trunc8_diff9 (a b : Byte) : trunc8 (diff9 a b) = a - b := by
  apply BitVec.eq_of_toNat_eq
  have := a.isLt; have := b.isLt
  simp only [trunc8, diff9, zext9, BitVec.toNat_setWidth, BitVec.toNat_sub]
  omega

theorem carries_iff (a b : Byte) : carries a b = true ↔ 255 < a.toNat + b.toNat := by
  have := a.isLt; have := b.isLt
  simp only [carries, sum9, zext9, decide_eq_true_eq, BitVec.lt_def, BitVec.toNat_add, BitVec.toNat_setWidth,
    BitVec.toNat_ofNat]
  omega

theorem borrows_iff (a b : Byte) : borrows a b = true ↔ a.toNat < b.toNat := by
  simp [borrows, BitVec.lt_def]

/-- The flag write touches `V[15]` alone, and sets it only. -/
theorem setFlagIf_eq (e : Bool) (s : State) :
    setFlagIf e s = { s with v := s.v.set Config.flagReg (if e then 1 else s.v[Config.flagReg]) } := by
  cases e
  · simp [setFlagIf]
  · rfl

/-! ### The meanings -/

@[simp] theorem exec_halt (s : State) : exec .halt s = .next (s.setStatus .halted) := rfl

@[simp] theorem exec_ldi (x : RegIdx) (byte : Byte) (s : State) : exec (.ldi x byte) s = .next (s.setReg x byte) := rfl

@[simp] theorem exec_mov (x y : RegIdx) (s : State) : exec (.mov x y) s = .next (s.setReg x s.v[y]) := rfl

theorem exec_addi (x : RegIdx) (byte : Byte) (s : State) :
    exec (.addi x byte) s = .next (s.setReg x (s.v[x] + byte)) := by
  rw [← trunc8_sum9]; rfl

theorem exec_add (x y : RegIdx) (s : State) :
    exec (.add x y) s = .next ((setFlagIf (carries s.v[x] s.v[y]) s).setReg x (s.v[x] + s.v[y])) := by
  rw [← trunc8_sum9]; rfl

theorem exec_sub (x y : RegIdx) (s : State) :
    exec (.sub x y) s = .next ((setFlagIf (borrows s.v[x] s.v[y]) s).setReg x (s.v[x] - s.v[y])) := by
  rw [← trunc8_diff9]; rfl

/-- All an Operation can do: stop the run, latch the fault, clear the display, or write registers. -/
theorem execute_cases (op : Operation) (s : State) :
    (op = .encoded .halt ∧ execute op s = .next (s.setStatus .halted)) ∨
    (op = .unimplemented ∧ execute op s = .next (raise .unimplementedOpcode s)) ∨
    (op = .clearScreen ∧ execute op s = .next s.clearDisplay) ∨
    (∃ i v, op = .encoded i ∧ i ≠ .halt ∧ execute op s = .next { s with v := v }) := by
  cases op with
  | unimplemented => exact .inr (.inl ⟨rfl, rfl⟩)
  | clearScreen => exact .inr (.inr (.inl ⟨rfl, rfl⟩))
  | encoded i =>
    cases i with
    | halt => exact .inl ⟨rfl, rfl⟩
    | ldi x byte => exact .inr (.inr (.inr ⟨_, _, rfl, by simp, rfl⟩))
    | addi x byte => exact .inr (.inr (.inr ⟨_, _, rfl, by simp, rfl⟩))
    | mov x y => exact .inr (.inr (.inr ⟨_, _, rfl, by simp, rfl⟩))
    | add x y =>
      exact .inr (.inr (.inr ⟨_, _, rfl, by simp, (exec_add x y s).trans (by rw [setFlagIf_eq]; rfl)⟩))
    | sub x y =>
      exact .inr (.inr (.inr ⟨_, _, rfl, by simp, (exec_sub x y s).trans (by rw [setFlagIf_eq]; rfl)⟩))

/-! ### The cycle and the host's move -/

/-- All one iteration of the run loop can do. -/
theorem cycle_eq (s : State) :
    cycle s = if s.pc.toNat ≤ 4094
      then execute (decode (wordOfBytes (Memory.read s.mem s.pc.toNat) (Memory.read s.mem (s.pc.toNat + 1)))) s.advance
      else .next (raise .fetchBounds s) := by
  rw [cycle, fetch_eq]
  split_ifs <;> rfl

theorem step_running {s : State} (h : s.status = .running) : step s = cycle s := by
  rw [step, h]

theorem step_stopped {s : State} (h : s.status ≠ .running) : step s = hostMove s := by
  rw [step]
  split <;> first | rfl | contradiction

theorem hostMove_nil {s : State} (h : s.pending = []) : hostMove s = .next s := by
  rw [hostMove, h]

theorem hostMove_accepted {s : State} {c : Command} {rest : List Command} (h : s.pending = c :: rest)
    (ha : accepts s.status c = true) : hostMove s = perform c { s with pending := rest } := by
  simp only [hostMove, h, ha, if_true]

theorem hostMove_refused {s : State} {c : Command} {rest : List Command} (h : s.pending = c :: rest)
    (ha : accepts s.status c = false) : hostMove s = .next { s with pending := rest } := by
  simp [hostMove, h, ha]

/-! ### Runs -/

theorem coreRun_next (M : Host.Core) {n : Nat} {s t : M.State} (h : M.step s = .next t) :
    M.run (n + 1) s = M.run n t := by
  rw [Host.Core.run, h]

/-- A run peels off its first step. -/
theorem run_next {n : Nat} {s t : State} (h : step s = .next t) :
    Host.Core.run Sys2Proof.core (n + 1) s = Host.Core.run Sys2Proof.core n t :=
  coreRun_next Sys2Proof.core h

/-! ### load -/

/-- All `load` can do: copy the image, or latch LoadBounds over unspecified memory. -/
theorem loadCommand_cases (bytes : List Byte) (s : State) :
    (bytes.length ≤ 4096 ∧ ∃ m, loadCommand bytes s = { s with mem := m } ∧
      (Memory.wf s.mem = true → Memory.wf m = true ∧ ∀ x, Memory.read m x =
        if h : x < bytes.length then bytes[x] else Memory.read s.mem x)) ∨
    (4096 < bytes.length ∧ loadCommand bytes s = raise .loadBounds s.forgetMemory) := by
  by_cases h : bytes.length ≤ 4096
  · refine .inl ⟨h, ?_⟩
    obtain ⟨m, hm, hspec⟩ := copyIn_ok bytes Config.loadBase s (by simpa [Config.loadBase] using h)
    refine ⟨m, ?_, fun hw => ?_⟩
    · rw [loadCommand, if_pos (by rw [wellFormedImage, Config.maxLoad, decide_eq_true_eq]; omega), hm]
    · obtain ⟨hwf, hread⟩ := hspec hw
      refine ⟨hwf, fun x => ?_⟩
      rw [hread x]
      simp [Config.loadBase]
  · refine .inr ⟨by omega, ?_⟩
    rw [loadCommand, if_neg (by rw [wellFormedImage, Config.maxLoad, decide_eq_true_eq]; omega)]

/-- The memory a faulting `load` leaves is in canonical form, whatever the free value. -/
theorem forgetMemory_wf (s : State) : Memory.wf s.forgetMemory.mem = true :=
  Memory.wfFrom_tabulateFrom _ 0 Config.memSize (Nat.le_refl 4096)

end Sys2Proof.Machine
end

