-- ==== Sys2Proof/Laws/PerInstr.lean ====
section
/-! SUPPORT. Statements made per instruction: each encodes into its own row of spec/opcode_table.json. -/

namespace Sys2Proof.Laws.EncodesInRow

/-- The word of `i` matches the row of `i` (R55). -/
def Statement (i : Instr) : Prop := encode i &&& i.row.2 = i.row.1

theorem halt : Statement .halt := rfl

theorem ldi (x : RegIdx) (byte : Byte) : Statement (.ldi x byte) := by
  apply BitVec.eq_of_getLsbD_eq
  intro i hi
  simp only [encode, Instr.row, BitVec.getLsbD_and, BitVec.getLsbD_append]
  interval_cases i <;> simp

theorem addi (x : RegIdx) (byte : Byte) : Statement (.addi x byte) := by
  apply BitVec.eq_of_getLsbD_eq
  intro i hi
  simp only [encode, Instr.row, BitVec.getLsbD_and, BitVec.getLsbD_append]
  interval_cases i <;> simp

theorem mov (x y : RegIdx) : Statement (.mov x y) := by
  apply BitVec.eq_of_getLsbD_eq
  intro i hi
  simp only [encode, Instr.row, BitVec.getLsbD_and, BitVec.getLsbD_append]
  interval_cases i <;> simp

theorem add (x y : RegIdx) : Statement (.add x y) := by
  apply BitVec.eq_of_getLsbD_eq
  intro i hi
  simp only [encode, Instr.row, BitVec.getLsbD_and, BitVec.getLsbD_append]
  interval_cases i <;> simp

theorem sub (x y : RegIdx) : Statement (.sub x y) := by
  apply BitVec.eq_of_getLsbD_eq
  intro i hi
  simp only [encode, Instr.row, BitVec.getLsbD_and, BitVec.getLsbD_append]
  interval_cases i <;> simp

end Sys2Proof.Laws.EncodesInRow
end

