-- ==== Sys2Proof/Laws/Reachable.lean ====
section
/-! SUPPORT. The induction over reachable states, packaged once. -/

namespace Sys2Proof.Machine

/-- What holds at every launch and is kept by every step holds of every reachable state. -/
theorem Reachable.invariant {P : State → Prop} {s : State} (hs : Reachable s)
    (hlaunch : ∀ d commands, P { State.launch d with pending := commands })
    (hstep : ∀ s t, P s → step s = .next t → P t) : P s := by
  induction hs with
  | atLaunch d commands => exact hlaunch d commands
  | byStep _ h ih => exact hstep _ _ ih h

end Sys2Proof.Machine
end

