-- ==== Sys2Proof/Tests/Slice0.lean ====
section
/-! SUPPORT. The model's own tests. Expected values are from spec/95_test_vectors.md (its ids stand in the comments) or worked
out by hand from the rule named; the witnesses meet the hypotheses of the statements. -/

namespace Sys2Proof.Tests

open Sys2Proof.Machine

/-- A property of the next state; false for a fault or a refusal. -/
def nextHas (o : Host.Outcome State Fault Refusal) (p : State → Bool) : Bool :=
  match o with
  | .next t => p t
  | .fault _ => false
  | .refused _ => false

/-- The power-on state with three registers set. -/
def regs (x : RegIdx) (a : Byte) (y : RegIdx) (b : Byte) (flag : Byte) : State :=
  { State.reset with v := ((State.reset.v.set (15 : RegIdx) flag).set y b).set x a }

/-- A running core with the two bytes at `pc` and `pc + 1` in memory. -/
def atPc (pc : Word) (b1 b2 : Byte) : State :=
  { State.reset with
    pc := pc, status := .running, mem := Memory.write (Memory.write [] pc.toNat b1) (pc.toNat + 1) b2 }

/-- A core in status `st` with one command pending. -/
def withCommand (st : Status) (c : Command) : State := { State.reset with status := st, pending := [c] }

/-- A display with one pixel on. -/
def onePixel : Display := Display.allOff.set 3 ((Vector.replicate 64 false).set 3 true)

/-! ### Well-formedness: what each check refuses -/

theorem test_image_of_4097_bytes_is_refused : wellFormedImage (List.replicate 4097 0) = false := by
  rw [wellFormedImage, List.length_replicate]; rfl

theorem test_image_of_4096_bytes_is_accepted : wellFormedImage (List.replicate 4096 0) = true := by
  rw [wellFormedImage, List.length_replicate]; rfl

/-- R74: no instruction is ill-formed, so there is no ill-formed term for this check to refuse. -/
theorem test_every_instruction_is_well_formed (i : Instr) : i.wellFormed = true := by
  cases i <;> rfl

theorem test_unsorted_memory_is_refused : Memory.wf [(2, 1), (1, 1)] = false := by decide

theorem test_memory_with_a_listed_zero_is_refused : Memory.wf [(1, 0)] = false := by decide

theorem test_memory_outside_the_array_is_refused : Memory.wf [(4096, 1)] = false := by decide

/-! ### Decoding: words written out from R51 to R56 (D-1, D-12, D-15, D-18, D-19, D-20) -/

theorem test_decode_system : decode 0b0000000000000000#16 = .encoded .halt := by decide

theorem test_decode_immediate :
    decode 0b0110101010111100#16 = .encoded (.ldi 0xA 0xBC) ∧ decode 0b0111111100000001#16 = .encoded (.addi 0xF 0x01) := by
  decide

theorem test_decode_register :
    decode 0b1000000100100000#16 = .encoded (.mov 0x1 0x2) ∧ decode 0b1000101010110100#16 = .encoded (.add 0xA 0xB) ∧
      decode 0b1000111111110101#16 = .encoded (.sub 0xF 0xF) := by
  decide

/-- D-2, D-3, D-5, D-10, D-21, D-24, D-27, D-28. -/
theorem test_decode_unimplemented :
    [0x0001#16, 0x00E0#16, 0x0FFF#16, 0x5FFF#16, 0x8121#16, 0x8126#16, 0x8FFF#16, 0x9000#16].all
      (fun w => decode w = .unimplemented) = true := by
  decide

/-- The boundary of every clause of the dispatch table: first and last word of each range (R55, R56). -/
theorem test_decode_range_boundaries :
    decode 0x5FFF#16 = .unimplemented ∧ decode 0x6000#16 = .encoded (.ldi 0 0) ∧
      decode 0x6FFF#16 = .encoded (.ldi 15 0xFF) ∧ decode 0x7000#16 = .encoded (.addi 0 0) ∧
      decode 0x7FFF#16 = .encoded (.addi 15 0xFF) ∧ decode 0x8000#16 = .encoded (.mov 0 0) ∧
      decode 0x8FF0#16 = .encoded (.mov 15 15) ∧ decode 0x8004#16 = .encoded (.add 0 0) ∧
      decode 0x8FF4#16 = .encoded (.add 15 15) ∧ decode 0x8005#16 = .encoded (.sub 0 0) ∧
      decode 0x8FF5#16 = .encoded (.sub 15 15) ∧ decode 0x8FFF#16 = .unimplemented ∧
      decode 0x9000#16 = .unimplemented ∧ decode 0xFFFF#16 = .unimplemented := by
  decide

theorem test_encode_is_the_written_word :
    encode (.ldi 0xA 0xBC) = 0x6ABC#16 ∧ encode (.addi 0xF 0x01) = 0x7F01#16 ∧ encode (.mov 1 2) = 0x8120#16 ∧
      encode (.add 0xA 0xB) = 0x8AB4#16 ∧ encode (.sub 15 15) = 0x8FF5#16 := by
  decide

/-! ### The instructions, one step each -/

/-- L-2. -/
theorem test_ldi : nextHas (exec (.ldi 0xA 0xBC) State.reset) (fun t => t.v[(0xA : RegIdx)] = 0xBC) = true := by decide

/-- L-4: the flag register as a plain destination. -/
theorem test_ldi_clears_flag :
    nextHas (exec (.ldi 15 0) (regs 0 0 1 0 1)) (fun t => t.v[(15 : RegIdx)] = 0) = true := by decide

/-- I-3: wraps, no flag. -/
theorem test_addi_wraps_without_flag :
    nextHas (exec (.addi 2 0xFF) (regs 2 1 1 0 0)) (fun t => t.v[(2 : RegIdx)] = 0 ∧ t.v[(15 : RegIdx)] = 0) = true := by
  decide

/-- I-8: into the flag register it wraps to 0 and is not set to 1. -/
theorem test_addi_into_flag :
    nextHas (exec (.addi 15 1) (regs 0 0 1 0 0xFF)) (fun t => t.v[(15 : RegIdx)] = 0) = true := by decide

/-- M-1: source and destination are not swapped. -/
theorem test_mov :
    nextHas (exec (.mov 1 2) (regs 1 0x11 2 0x22 0)) (fun t => t.v[(1 : RegIdx)] = 0x22 ∧ t.v[(2 : RegIdx)] = 0x22) = true := by
  decide

/-- M-5: out of the flag register. -/
theorem test_mov_out_of_flag :
    nextHas (exec (.mov 1 15) (regs 1 0 2 0 1)) (fun t => t.v[(1 : RegIdx)] = 1) = true := by decide

/-- A-13: the old flag value is added as data, then the carry sets it. -/
theorem test_add_flag_as_source :
    nextHas (exec (.add 1 15) (regs 1 0xF0 2 0 0x20)) (fun t => t.v[(1 : RegIdx)] = 0x10 ∧ t.v[(15 : RegIdx)] = 1) = true := by
  decide

/-- A-7: without a carry the flag keeps any byte. -/
theorem test_add_keeps_flag :
    nextHas (exec (.add 0 1) (regs 0 1 1 2 0x77)) (fun t => t.v[(0 : RegIdx)] = 3 ∧ t.v[(15 : RegIdx)] = 0x77) = true := by
  decide

/-- B-2: 1 means a borrow. -/
theorem test_sub_borrows :
    nextHas (exec (.sub 0 3) (regs 0 5 3 6 0)) (fun t => t.v[(0 : RegIdx)] = 0xFF ∧ t.v[(15 : RegIdx)] = 1) = true := by
  decide

/-- B-10: into the flag register the difference stands (D3). -/
theorem test_sub_into_flag :
    nextHas (exec (.sub 15 1) (regs 1 2 2 0 1)) (fun t => t.v[(15 : RegIdx)] = 0xFF) = true := by decide

/-- X-13: HALT through direct dispatch does not move `pc`. -/
theorem test_halt : nextHas (exec .halt State.reset) (fun t => t.status = .halted ∧ t.pc = 0) = true := by decide

/-- A-16: ADD into the flag register, carry lost (D3). -/
theorem test_add_into_flag :
    nextHas (execute (.encoded (.add 15 15)) (regs 0 0 1 0 0xC8)) (fun t => t.v[(15 : RegIdx)] = 0x90) = true := by decide

/-- X-11. -/
theorem test_clear_screen :
    nextHas (execute .clearScreen (State.launch onePixel)) (fun t => t.disp = Display.allOff ∧ t.status = .idle) = true := by
  decide

/-! ### Fetch and step -/

/-- F-1, F-2: big-endian. -/
theorem test_fetch_is_big_endian :
    fetch (atPc 0 0x8A 0xB4) = .ok 0x8AB4#16 ∧ fetch (atPc 0 0xB4 0x8A) = .ok 0xB48A#16 := ⟨rfl, rfl⟩

/-- F-3: the last legal fetch. -/
theorem test_fetch_at_4094 : fetch (atPc 4094 0x60 0x01) = .ok 0x6001#16 := rfl

/-- F-4, F-5 and R34's modulo: no fetch at 4096, 4095 or 65535. -/
theorem test_fetch_out_of_bounds :
    fetch (atPc 4096 0 0) = .error .fetchBounds ∧ fetch (atPc 4095 0 0) = .error .fetchBounds ∧
      fetch (atPc 65535 0 0) = .error .fetchBounds := ⟨rfl, rfl, rfl⟩

/-- X-2: 00E0 faults, `pc` past it. -/
theorem test_00E0_faults :
    nextHas (step (atPc 0 0x00 0xE0)) (fun t => t.status = .faulted .unimplementedOpcode ∧ t.pc = 2) = true := by decide

/-- P10: zero memory halts. -/
theorem test_zero_memory_halts :
    nextHas (step (atPc 0 0 0)) (fun t => t.status = .halted ∧ t.pc = 2) = true := by decide

/-- `withFetchWord` makes the very next step run the word: L-2. -/
theorem test_withFetchWord :
    nextHas (step (State.reset.withFetchWord 16 0x6ABC)) (fun t => t.v[(0xA : RegIdx)] = 0xBC ∧ t.pc = 2) = true := by
  decide

theorem test_decodeTableWord :
    decodeTableWord 16 0x8AB4 = some (.add 0xA 0xB) ∧ decodeTableWord 16 0x8AB1 = none := by decide

/-! ### Commands -/

/-- Z-1: `reset` keeps the display. -/
theorem test_reset_keeps_display :
    nextHas (step { withCommand .halted .reset with disp := onePixel, pc := 0x10, mem := [(0, 0x60)] })
      (fun t => t.disp = onePixel ∧ t.pc = 0 ∧ t.mem = [] ∧ t.status = .idle) = true := by decide

/-- Z-3: `load` does not clear the tail. -/
theorem test_load_keeps_the_tail :
    nextHas (step { withCommand .idle (.load [0xAA, 0xBB]) with mem := [(0, 0x11), (1, 0x22), (2, 0x33), (3, 0x44)] })
      (fun t => t.mem = [(0, 0xAA), (1, 0xBB), (2, 0x33), (3, 0x44)]) = true := by decide

/-- X-5, X-6: a faulted core refuses `run` and `load`. -/
theorem test_faulted_refuses :
    nextHas (step (withCommand (.faulted .unimplementedOpcode) .run))
        (fun t => t.status = .faulted .unimplementedOpcode) = true ∧
      nextHas (step (withCommand (.faulted .unimplementedOpcode) (.load [0x60]))) (fun t => t.mem = []) = true := by
  decide

/-! ### Witnesses: states that meet the hypotheses of the statements -/

theorem witness_EncodeOfDecodeIsTheWord : decode 0x8AB4#16 = .encoded (.add 0xA 0xB) := by decide

theorem witness_TableWordIsTheDecodedWord : decodeTableWord 16 (0x7F01#16).toNat = some (.addi 15 1) := by decide

theorem witness_UnimplementedIffNoRowMatches : ∀ row ∈ tableRows, 0x9000#16 &&& row.2 ≠ row.1 := by
  simp [tableRows]

theorem witness_MemoryAccessesAreBounded :
    Memory.wf State.reset.mem = true ∧ (4095 : Word).toNat ≤ 4095 ∧ 4095 < (4096 : Word).toNat := by decide

theorem witness_FetchIsBigEndianAndBounded_inBounds :
    (atPc 4094 0x60 0x01).pc.toNat ≤ 4095 ∧ ((atPc 4094 0x60 0x01).pc + 1).toNat ≤ 4095 := by decide

theorem witness_FetchIsBigEndianAndBounded_outOfBounds :
    4095 < ((atPc 4095 0 0).pc + 1).toNat ∧ 4095 < (atPc 4096 0 0).pc.toNat ∧ (atPc 4096 0 0).status = .running := by
  decide

theorem witness_FetchIsBigEndianAndBounded_even :
    (atPc 4096 0 0).pc.toNat % 2 = 0 ∧ (atPc 4096 0 0).pc.toNat ≤ 4096 := by decide

theorem witness_StepRunsTheDecodedInstruction_encoded :
    (atPc 4094 0x60 0x01).status = .running ∧ (atPc 4094 0x60 0x01).pc.toNat ≤ 4094 ∧
      decode (Memory.read (atPc 4094 0x60 0x01).mem 4094 ++ Memory.read (atPc 4094 0x60 0x01).mem 4095) =
        .encoded (.ldi 0 1) := by decide

theorem witness_StepRunsTheDecodedInstruction_unimplemented :
    (atPc 4094 0x00 0xE0).status = .running ∧ (atPc 4094 0x00 0xE0).pc.toNat ≤ 4094 ∧
      decode (Memory.read (atPc 4094 0x00 0xE0).mem 4094 ++ Memory.read (atPc 4094 0x00 0xE0).mem 4095) =
        .unimplemented := by decide

theorem witness_StepRunsTheDecodedInstruction_outOfBounds :
    (atPc 4095 0 0).status = .running ∧ 4094 < (atPc 4095 0 0).pc.toNat := by decide

theorem witness_PcAdvancesByTwoPerDecodedInstruction_running :
    ∃ t, step (atPc 4094 0x60 0x01) = .next t ∧ (atPc 4094 0x60 0x01).status = .running ∧
      (atPc 4094 0x60 0x01).pc.toNat ≤ 4094 := ⟨_, rfl, rfl, by decide⟩

theorem witness_PcAdvancesByTwoPerDecodedInstruction_fault :
    ∃ t, step (atPc 4095 0 0) = .next t ∧ (atPc 4095 0 0).status = .running ∧ 4094 < (atPc 4095 0 0).pc.toNat :=
  ⟨_, rfl, rfl, by decide⟩

theorem witness_PcAdvancesByTwoPerDecodedInstruction_stopped :
    ∃ t, step (withCommand .halted .reset) = .next t ∧ (withCommand .halted .reset).status ≠ .running :=
  ⟨_, rfl, by decide⟩

theorem witness_HaltEndsTheRun :
    (atPc 4094 0 0).status = .running ∧ (atPc 4094 0 0).pc.toNat ≤ 4094 ∧ Memory.read (atPc 4094 0 0).mem 4094 = 0 ∧
      Memory.read (atPc 4094 0 0).mem 4095 = 0 := by decide

theorem witness_HaltEndsTheRun_onlyExit :
    ∃ t, (atPc 4094 0 0).status = .running ∧ step (atPc 4094 0 0) = .next t ∧ t.status = .halted := ⟨_, rfl, rfl, rfl⟩

theorem witness_UnimplementedRaisesTheFault :
    (atPc 4094 0x00 0xE0).status = .running ∧ (atPc 4094 0x00 0xE0).pc.toNat ≤ 4094 ∧
      ∀ row ∈ tableRows, (Memory.read (atPc 4094 0x00 0xE0).mem 4094 ++ Memory.read (atPc 4094 0x00 0xE0).mem 4095) &&&
        row.2 ≠ row.1 := by
  refine ⟨rfl, by decide, fun row h => ?_⟩
  have hword : Memory.read (atPc 4094 0x00 0xE0).mem 4094 ++ Memory.read (atPc 4094 0x00 0xE0).mem 4095 = 0x00E0#16 := by
    decide
  rw [hword]
  simp only [tableRows, List.mem_cons, List.not_mem_nil, or_false] at h
  rcases h with rfl | rfl | rfl | rfl | rfl | rfl <;> decide

/-- A-3 and A-4: the sums 255 and 256. -/
theorem witness_AddWrapsAndSetsTheCarry :
    (0 : RegIdx) ≠ 15 ∧
      255 < (regs 0 0xFF 1 1 0).v[(0 : RegIdx)].toNat + (regs 0 0xFF 1 1 0).v[(1 : RegIdx)].toNat ∧
      (regs 0 0xFE 1 1 0).v[(0 : RegIdx)].toNat + (regs 0 0xFE 1 1 0).v[(1 : RegIdx)].toNat ≤ 255 := by decide

/-- B-3 and B-4: equal operands, and 0 - 1. -/
theorem witness_SubWrapsAndSetsTheBorrow :
    (0 : RegIdx) ≠ 15 ∧ (regs 0 0 1 1 0).v[(0 : RegIdx)].toNat < (regs 0 0 1 1 0).v[(1 : RegIdx)].toNat ∧
      (regs 0 7 1 7 0).v[(1 : RegIdx)].toNat ≤ (regs 0 7 1 7 0).v[(0 : RegIdx)].toNat := by decide

theorem witness_TheFlagIsOnlyEverSet :
    (∃ t, exec (.add 0 1) (regs 0 0xFF 1 1 0) = .next t) ∧ destOf (.add 0 1) ≠ some 15 := ⟨⟨_, rfl⟩, by decide⟩

theorem witness_OnlyDestinationAndFlagAreWritten :
    (∃ t, execute (.encoded (.add 0 1)) (regs 0 0xFF 1 1 0) = .next t) ∧ (2 : RegIdx) ≠ 15 ∧
      ∀ i, Operation.encoded (.add 0 1) = .encoded i → destOf i ≠ some 2 :=
  ⟨⟨_, rfl⟩, by decide, fun i h => by cases h; decide⟩

theorem witness_OperationsLeaveMemoryStackAndPc :
    (∃ t, execute (.encoded (.ldi 0 1)) State.reset = .next t) ∧ Operation.encoded (.ldi 0 1) ≠ .clearScreen ∧
      Operation.encoded (.ldi 0 1) ≠ .encoded .halt ∧ Operation.encoded (.ldi 0 1) ≠ .unimplemented :=
  ⟨⟨_, rfl⟩, by decide, by decide, by decide⟩

theorem witness_RunningStepsLeaveMemory :
    (∀ m < 1, ∀ u, Host.Core.run Sys2Proof.core m (atPc 0 0x60 0x01) = .next u → u.status = .running) ∧
      ∃ t, Host.Core.run Sys2Proof.core 1 (atPc 0 0x60 0x01) = .next t :=
  ⟨fun m hm u h => by obtain rfl : m = 0 := by omega
                      cases h; rfl, _, rfl⟩

theorem witness_StackAndDisplayAreNeverRead :
    (atPc 0 0x81 0x24).status = .running ∧ ∃ t, step (atPc 0 0x81 0x24) = .next t := ⟨rfl, _, rfl⟩

theorem witness_TheHostHasNoMoveDuringARun :
    { atPc 0 0x81 0x24 with pending := [.reset] }.status = .running ∧
      ∃ t, step { atPc 0 0x81 0x24 with pending := [.reset] } = .next t := ⟨rfl, _, rfl⟩

theorem witness_NoStepTurnsAPixelOn :
    (∃ t, step (withCommand .idle (.execute .clearScreen)) = .next t) ∧
      (withCommand .idle (.execute .clearScreen)).disp[(3 : Fin 32)][(3 : Fin 64)] = false := ⟨⟨_, rfl⟩, by decide⟩

theorem witness_EveryStepKeepsTheInvariant :
    (atPc 4094 0x60 0x01).Inv ∧ ∃ t, step (atPc 4094 0x60 0x01) = .next t := ⟨by decide, _, rfl⟩

/-- `n` words of zero memory executed, one `run` each, with `k` more runs to come. -/
def zeroRun (n k : Nat) : State :=
  { State.reset with
    pc := BitVec.ofNat 16 (2 * n), status := if n = 0 then .idle else .halted, pending := List.replicate k .run }

/-- The same, the next run begun. -/
def zeroRunning (n k : Nat) : State := { zeroRun n k with status := .running }

theorem zeroRun_step (n k : Nat) : step (zeroRun n (k + 1)) = .next (zeroRunning n k) := by
  cases n <;> rfl

theorem zeroRunning_step (n k : Nat) (h : n ≤ 2047) : step (zeroRunning n k) = .next (zeroRun (n + 1) k) := by
  have hpc : (zeroRunning n k).pc.toNat = 2 * n := by
    simp only [zeroRunning, zeroRun, BitVec.toNat_ofNat]
    omega
  rw [step_running rfl, cycle_eq, if_pos (by omega)]
  have hadd : BitVec.ofNat 16 (2 * n) + 2 = BitVec.ofNat 16 (2 * (n + 1)) := by
    rw [show 2 * (n + 1) = 2 * n + 2 by omega, BitVec.ofNat_add]
    rfl
  have hmem (a : Nat) : Memory.read (zeroRunning n k).mem a = 0 := rfl
  rw [hmem, hmem, show decode (wordOfBytes 0 0) = .encoded .halt from rfl, zeroRun, ← hadd]
  rfl

theorem zeroRun_reachable (n k : Nat) (h : n ≤ 2048) : Reachable (zeroRun n k) := by
  induction n generalizing k with
  | zero => exact Reachable.atLaunch Display.allOff (List.replicate k .run)
  | succ n ih =>
    exact .byStep (.byStep (ih (k + 1) (by omega)) (zeroRun_step n k)) (zeroRunning_step n k (by omega))

theorem witness_ReachableStatesKeepPcAndStack : Reachable (zeroRun 2048 0) := zeroRun_reachable 2048 0 (Nat.le_refl _)

theorem witness_FetchFaultsOnlyAtTheEndOfMemory :
    ∃ t, Reachable (zeroRunning 2048 0) ∧ (zeroRunning 2048 0).status = .running ∧
      4095 < (zeroRunning 2048 0).pc.toNat ∧ step (zeroRunning 2048 0) = .next t ∧ t.status = .faulted .fetchBounds :=
  ⟨_, .byStep (zeroRun_reachable 2048 1 (Nat.le_refl _)) (zeroRun_step 2048 0), rfl, by decide, rfl, rfl⟩

theorem witness_EveryRunEnds : (atPc 0 0x60 0x01).status = .running := rfl

theorem witness_FaultAddressIsRecoverable :
    (atPc 4094 0x00 0xE0).status = .running ∧
      ∃ t, step (atPc 4094 0x00 0xE0) = .next t ∧ t.status = .faulted .unimplementedOpcode := ⟨rfl, _, rfl, rfl⟩

theorem witness_FaultAddressIsRecoverable_fetchBounds :
    (atPc 4095 0 0).status = .running ∧ ∃ t, step (atPc 4095 0 0) = .next t ∧ t.status = .faulted .fetchBounds :=
  ⟨rfl, _, rfl, rfl⟩

theorem witness_ResetZeroesAllButTheDisplay :
    (withCommand (.faulted .loadBounds) .reset).status ≠ .running ∧
      (withCommand (.faulted .loadBounds) .reset).pending = .reset :: [] := by decide

theorem witness_TheDisplayPersistsAcrossReset_reset :
    (withCommand .halted .reset).status ≠ .running ∧ (withCommand .halted .reset).pending.head? = some .reset ∧
      ∃ t, step (withCommand .halted .reset) = .next t := ⟨by decide, rfl, _, rfl⟩

theorem witness_TheDisplayPersistsAcrossReset_clear :
    ∃ t, step { withCommand .idle (.execute .clearScreen) with disp := onePixel } = .next t ∧ t.disp ≠ onePixel :=
  ⟨_, rfl, by decide⟩

theorem witness_ResetIsIdempotent : State.reset.status ≠ .running := by decide

theorem witness_LoadCopiesTheImage :
    (withCommand .idle (.load [0x60, 0x12, 0x70])).status = .idle ∧
      Memory.wf (withCommand .idle (.load [0x60, 0x12, 0x70])).mem = true ∧
      (withCommand .idle (.load [0x60, 0x12, 0x70])).pending = .load [0x60, 0x12, 0x70] :: [] ∧
      [(0x60 : Byte), 0x12, 0x70].length ≤ 4096 := by decide

/-- X-8: one byte too many. -/
theorem witness_LoadThatIsTooLongFaults :
    (withCommand .idle (.load (List.replicate 4097 0))).status = .idle ∧
      (withCommand .idle (.load (List.replicate 4097 0))).pending = .load (List.replicate 4097 0) :: [] ∧
      4096 < (List.replicate 4097 (0 : Byte)).length :=
  ⟨rfl, rfl, by rw [List.length_replicate]; decide⟩

theorem witness_RunStartsAtTheCurrentPc :
    (withCommand .halted .run).status = .halted ∧ (withCommand .halted .run).pending = .run :: [] := by decide

theorem witness_DirectDispatchDoesNotFetch :
    (withCommand .idle (.execute .clearScreen)).status = .idle ∧
      (withCommand .idle (.execute .clearScreen)).pending = .execute .clearScreen :: [] := by decide

theorem witness_AFaultedCoreAcceptsOnlyReset :
    (withCommand (.faulted .fetchBounds) .run).status = .faulted .fetchBounds ∧
      (withCommand (.faulted .fetchBounds) .run).pending = .run :: [] ∧ Command.run ≠ .reset ∧
      ∃ t, step (withCommand (.faulted .fetchBounds) .run) = .next t := ⟨rfl, rfl, by decide, _, rfl⟩

theorem witness_BootRunsFromAddressZero : [(0x60 : Byte), 0x01].length ≤ 4096 := by decide

theorem witness_CanonicalMemoriesAreTheirContents :
    Memory.wf (Memory.write [] 5 1) = true ∧ Memory.wf [(5, 1)] = true ∧
      ∀ a, Memory.read (Memory.write [] 5 1) a = Memory.read [(5, 1)] a := ⟨by decide, by decide, fun _ => rfl⟩

end Sys2Proof.Tests
end

section
/-! PROOFS. What the operations, the host's moves and a step can do to the state. -/

namespace Sys2Proof.Machine

variable {s t : State}

/-! ### The operations -/

/-- `execute_cases` seen from the next state. -/
theorem execute_next_cases {op : Operation} (h : execute op s = .next t) :
    t = s.setStatus .halted ∨ t = raise .unimplementedOpcode s ∨ t = s.clearDisplay ∨ ∃ v, t = { s with v := v } := by
  obtain ⟨-, he⟩ | ⟨-, he⟩ | ⟨-, he⟩ | ⟨_, v, -, -, he⟩ := execute_cases op s <;> cases he.symm.trans h
  · exact .inl rfl
  · exact .inr (.inl rfl)
  · exact .inr (.inr (.inl rfl))
  · exact .inr (.inr (.inr ⟨v, rfl⟩))

theorem execute_pc {op : Operation} (h : execute op s = .next t) : t.pc = s.pc := by
  obtain rfl | rfl | rfl | ⟨v, rfl⟩ := execute_next_cases h <;> rfl

theorem execute_mem {op : Operation} (h : execute op s = .next t) : t.mem = s.mem := by
  obtain rfl | rfl | rfl | ⟨v, rfl⟩ := execute_next_cases h <;> rfl

theorem execute_disp {op : Operation} (h : execute op s = .next t) : t.disp = s.disp ∨ t.disp = Display.allOff := by
  obtain rfl | rfl | rfl | ⟨v, rfl⟩ := execute_next_cases h
  · exact .inl rfl
  · exact .inl rfl
  · exact .inr rfl
  · exact .inl rfl

theorem setFlagIf_getElem (e : Bool) (s : State) (k : RegIdx) :
    (setFlagIf e s).v[k] = if e = true ∧ k = 15 then 1 else s.v[k] := by
  cases e with
  | false => simp [setFlagIf]
  | true =>
    simp only [true_and]
    exact setReg_getElem s Config.flagReg k 1

/-- All an instruction can do to the registers: HALT writes none; any other writes its destination, and before it (D3)
perhaps the flag, which only ADD and SUB do (R11, R13). -/
theorem exec_next_cases {i : Instr} (h : exec i s = .next t) :
    (i = .halt ∧ t = s.setStatus .halted) ∨
    ∃ x e b, destOf i = some x ∧ t = (setFlagIf e s).setReg x b ∧
      (e = true → ∃ x y, i = .add x y ∨ i = .sub x y) := by
  cases i with
  | halt => cases h; exact .inl ⟨rfl, rfl⟩
  | ldi x byte => cases h; exact .inr ⟨x, false, _, rfl, rfl, by simp⟩
  | addi x byte => cases h; exact .inr ⟨x, false, _, rfl, rfl, by simp⟩
  | mov x y => cases h; exact .inr ⟨x, false, _, rfl, rfl, by simp⟩
  | add x y => cases h; exact .inr ⟨x, _, _, rfl, rfl, fun _ => ⟨x, y, .inl rfl⟩⟩
  | sub x y => cases h; exact .inr ⟨x, _, _, rfl, rfl, fun _ => ⟨x, y, .inr rfl⟩⟩

theorem exec_getElem_of_ne_dest {i : Instr} (h : exec i s = .next t) {k : RegIdx} (hk : k ≠ 15)
    (hd : destOf i ≠ some k) : t.v[k] = s.v[k] := by
  obtain ⟨-, rfl⟩ | ⟨x, e, b, hx, rfl, -⟩ := exec_next_cases h
  · rfl
  · have hkx : k ≠ x := fun hkx => hd (hkx ▸ hx)
    rw [setReg_getElem, if_neg hkx, setFlagIf_getElem, if_neg (fun hf => hk hf.2)]

/-! ### load -/

theorem loadCommand_pc (bytes : List Byte) (s : State) : (loadCommand bytes s).pc = s.pc := by
  obtain ⟨-, m, hm, -⟩ | ⟨-, hm⟩ := loadCommand_cases bytes s <;> simp [hm]

theorem loadCommand_disp (bytes : List Byte) (s : State) : (loadCommand bytes s).disp = s.disp := by
  obtain ⟨-, m, hm, -⟩ | ⟨-, hm⟩ := loadCommand_cases bytes s <;> simp [hm]

theorem loadCommand_wf (bytes : List Byte) (hs : Memory.wf s.mem = true) :
    Memory.wf (loadCommand bytes s).mem = true := by
  obtain ⟨-, m, hm, hspec⟩ | ⟨-, hm⟩ := loadCommand_cases bytes s <;> rw [hm]
  · exact (hspec hs).1
  · exact forgetMemory_wf s

/-! ### The host's move and the step -/

/-- Where the host's move can lead from `s`, by the command presented and whether it is accepted (R178). -/
inductive HostMove (s : State) : State → Prop where
  | retained : s.pending = [] → HostMove s s
  | refused {c rest} : s.pending = c :: rest → accepts s.status c = false → HostMove s { s with pending := rest }
  | reset {rest} : s.pending = .reset :: rest → accepts s.status .reset = true →
      HostMove s (resetCommand { s with pending := rest })
  | load {bytes rest} : s.pending = .load bytes :: rest → accepts s.status (.load bytes) = true →
      HostMove s (loadCommand bytes { s with pending := rest })
  | run {rest} : s.pending = .run :: rest → accepts s.status .run = true →
      HostMove s (runCommand { s with pending := rest })
  | execute {op rest t} : s.pending = .execute op :: rest → accepts s.status (.execute op) = true →
      Machine.execute op { s with pending := rest } = .next t → HostMove s t

theorem hostMove_cases (h : hostMove s = .next t) : HostMove s t := by
  cases hp : s.pending with
  | nil =>
    cases (hostMove_nil hp).symm.trans h
    exact .retained hp
  | cons c rest =>
    cases ha : accepts s.status c with
    | false =>
      cases (hostMove_refused hp ha).symm.trans h
      exact .refused hp ha
    | true =>
      have hc := (hostMove_accepted hp ha).symm.trans h
      cases c with
      | reset => cases hc; exact .reset hp ha
      | load bytes => cases hc; exact .load hp ha
      | run => cases hc; exact .run hp ha
      | execute op => exact .execute hp ha hc

/-- All a step can do: run the word at `pc` with `pc` moved past it, latch the fetch's fault, or make the host's move. -/
theorem step_cases (h : step s = .next t) :
    (s.status = .running ∧ s.pc.toNat ≤ 4094 ∧
      execute (decode (wordOfBytes (Memory.read s.mem s.pc.toNat) (Memory.read s.mem (s.pc.toNat + 1)))) s.advance =
        .next t) ∨
    (s.status = .running ∧ 4094 < s.pc.toNat ∧ t = raise .fetchBounds s) ∨
    (s.status ≠ .running ∧ HostMove s t) := by
  by_cases hr : s.status = .running
  · rw [step_running hr, cycle_eq] at h
    split_ifs at h with hpc
    · exact .inl ⟨hr, hpc, h⟩
    · cases h
      exact .inr (.inl ⟨hr, Nat.lt_of_not_le hpc, rfl⟩)
  · rw [step_stopped hr] at h
    exact .inr (.inr ⟨hr, hostMove_cases h⟩)

theorem HostMove.pc_eq (h : HostMove s t) : t.pc = s.pc ∨ (t.pc = 0 ∧ s.pending.head? = some .reset) := by
  cases h with
  | retained => exact .inl rfl
  | refused => exact .inl rfl
  | reset hp => exact .inr ⟨rfl, by rw [hp]; rfl⟩
  | load => exact .inl (loadCommand_pc _ _)
  | run => exact .inl rfl
  | execute _ _ he => exact .inl (execute_pc he :)

theorem HostMove.disp_eq (h : HostMove s t) : t.disp = s.disp ∨ t.disp = Display.allOff := by
  cases h with
  | retained => exact .inl rfl
  | refused => exact .inl rfl
  | reset => exact .inl rfl
  | load => exact .inl (loadCommand_disp _ _)
  | run => exact .inl rfl
  | execute _ _ he => exact (execute_disp he :)

theorem HostMove.wf (h : HostMove s t) (hs : Memory.wf s.mem = true) : Memory.wf t.mem = true := by
  cases h with
  | retained => exact hs
  | refused => exact hs
  | reset => rfl
  | load => exact loadCommand_wf _ hs
  | run => exact hs
  | execute _ _ he => rw [execute_mem he]; exact hs

theorem step_disp (h : step s = .next t) : t.disp = s.disp ∨ t.disp = Display.allOff := by
  obtain ⟨-, -, he⟩ | ⟨-, -, rfl⟩ | ⟨-, hm⟩ := step_cases h
  · exact (execute_disp he :)
  · exact .inl rfl
  · exact hm.disp_eq

theorem allOff_pixel (r : Fin 32) (c : Fin 64) : Display.allOff[r][c] = false := by
  simp [Display.allOff]

/-! ### The invariant -/

/-- The invariant speaks of memory and `pc` alone. -/
theorem State.Inv.of_eq (hs : s.Inv) (hm : t.mem = s.mem) (hpc : t.pc = s.pc) : t.Inv := by
  rw [State.Inv, hm, hpc]
  exact hs

/-- Past a word that was fetched in bounds `pc` is still at most 4096 (R16). -/
theorem State.Inv.advance (hs : s.Inv) (hpc : s.pc.toNat ≤ 4094) : s.advance.Inv := by
  obtain ⟨hwf, heven, -⟩ := hs
  have hadd : s.advance.pc.toNat = s.pc.toNat + 2 := by
    rw [advance_pc, Config.pcStep]
    bv_omega
  exact ⟨hwf, by omega, by omega⟩

theorem HostMove.inv (h : HostMove s t) (hs : s.Inv) : t.Inv := by
  obtain ⟨hwf, heven, hle⟩ := hs
  have hmem := h.wf hwf
  obtain hpc | ⟨hpc, -⟩ := h.pc_eq
  · exact ⟨hmem, by rwa [hpc], by rwa [hpc]⟩
  · exact ⟨hmem, by simp [hpc], by simp [hpc]⟩

/-! ### The statements -/

/-- Settles O33, by the cases of a step: the advance follows only a fetch from 4094 or below, and of the host's moves
`reset` alone writes `pc`, and `load` keeps memory canonical. -/
theorem everyStepKeepsTheInvariant : Obligations.EveryStepKeepsTheInvariant := by
  intro s t hs h
  obtain ⟨-, hpc, he⟩ | ⟨-, -, rfl⟩ | ⟨-, hm⟩ := step_cases h
  · exact (hs.advance hpc).of_eq (execute_mem he) (execute_pc he)
  · exact hs.of_eq rfl rfl
  · exact hm.inv hs

/-- Settles O12, by the cases of a step: no operation writes `pc` after the advance. -/
theorem pcAdvancesByTwoPerDecodedInstruction : Obligations.PcAdvancesByTwoPerDecodedInstruction := by
  intro s t h
  obtain ⟨hr, hpc, he⟩ | ⟨hr, hpc, rfl⟩ | ⟨hr, hm⟩ := step_cases h
  · exact ⟨fun _ _ => execute_pc he, fun _ hgt => absurd hpc (Nat.not_le_of_gt hgt), fun hn => absurd hr hn⟩
  · exact ⟨fun _ hle => absurd hpc (Nat.not_lt_of_ge hle), fun _ _ => rfl, fun hn => absurd hr hn⟩
  · exact ⟨fun hrun => absurd hrun hr, fun hrun => absurd hrun hr, fun _ => hm.pc_eq⟩

/-- Settles O25: a destination other than the flag leaves `V[15]` as the flag write made it. -/
theorem theFlagIsOnlyEverSet : Obligations.TheFlagIsOnlyEverSet := by
  intro i s t h hd
  obtain ⟨-, rfl⟩ | ⟨x, e, b, hx, rfl, hflag⟩ := exec_next_cases h
  · exact .inl rfl
  · have hne : (15 : RegIdx) ≠ x := fun h15 => hd (h15 ▸ hx)
    rw [setReg_getElem, if_neg hne, setFlagIf_getElem]
    cases e with
    | false => exact .inl rfl
    | true => exact .inr ⟨rfl, hflag rfl⟩

/-- Settles O26: Unimplemented and ClearScreen write no register, an instruction only its destination and the flag. -/
theorem onlyDestinationAndFlagAreWritten : Obligations.OnlyDestinationAndFlagAreWritten := by
  intro op s t h k hk hd
  cases op with
  | encoded i => exact exec_getElem_of_ne_dest h hk (hd i rfl)
  | unimplemented => cases h; rfl
  | clearScreen => cases h; rfl

/-- Settles O31: a step leaves the display as it was or turns all of it off. -/
theorem noStepTurnsAPixelOn : Obligations.NoStepTurnsAPixelOn := by
  intro s t h r c hoff
  obtain hd | hd := step_disp h
  · rwa [hd]
  · rw [hd]
    exact allOff_pixel r c

/-- Settles O1: a replicated vector holds the same value at every index, and no cell of memory is listed. -/
theorem creationLeavesEverythingZero : Obligations.CreationLeavesEverythingZero :=
  ⟨fun k => Vector.getElem_replicate k.isLt, rfl, Memory.read_nil, fun k => Vector.getElem_replicate k.isLt, rfl,
    allOff_pixel, rfl⟩

end Sys2Proof.Machine
end

section
/-! PROOFS. Memory: what an access answers at every address, the fetch, and that neither an operation nor a run writes it. -/

namespace Sys2Proof.Machine

variable {s t : State}

/-! ### The accesses and the fetch -/

theorem memWrite_of_ge {a : Word} (b : Byte) (s : State) (h : 4096 ≤ a.toNat) :
    memWrite a b s = .error .loadBounds := by
  rw [memWrite, if_neg (fun hb => absurd ((inBounds_iff a).mp hb) (Nat.not_lt_of_ge h))]

/-- Below the last cell the address of the second byte is the next number (no wrap, R34). -/
theorem toNat_add_one_of_le {a : Word} (h : a.toNat ≤ 4095) : (a + 1).toNat = a.toNat + 1 := by
  bv_omega

/-- The two bounds tests of a fetch are one: both bytes are in the array exactly when `pc` is at most 4094 (R34). -/
theorem fetch_addresses_inBounds_iff (a : Word) : (a.toNat ≤ 4095 ∧ (a + 1).toNat ≤ 4095) ↔ a.toNat ≤ 4094 := by
  bv_omega

theorem fetch_of_le (h : s.pc.toNat ≤ 4094) :
    fetch s = .ok (wordOfBytes (Memory.read s.mem s.pc.toNat) (Memory.read s.mem (s.pc.toNat + 1))) := by
  rw [fetch_eq, if_pos h]

theorem fetch_of_gt (h : 4094 < s.pc.toNat) : fetch s = .error .fetchBounds := by
  rw [fetch_eq, if_neg (Nat.not_le_of_gt h)]

theorem step_of_fetch_fault (hr : s.status = .running) (h : 4094 < s.pc.toNat) :
    step s = .next (raise .fetchBounds s) := by
  rw [step_running hr, cycle_eq, if_neg (Nat.not_le_of_gt h)]

/-! ### Memory in a run -/

theorem step_mem_of_running (hr : s.status = .running) (h : step s = .next t) : t.mem = s.mem := by
  obtain ⟨-, -, he⟩ | ⟨-, -, rfl⟩ | ⟨hn, -⟩ := step_cases h
  · exact (execute_mem he :)
  · rfl
  · exact absurd hr hn

theorem coreRun_succ_next (M : Host.Core) {n : Nat} {s t : M.State} (h : M.run (n + 1) s = .next t) :
    ∃ u, M.step s = .next u ∧ M.run n u = .next t := by
  rw [Host.Core.run] at h
  split at h
  next u hu => exact ⟨u, hu, h⟩
  next => cases h
  next => cases h

/-- The converse of `run_next`: a run of `n + 1` steps that ends in a state has a first step. -/
theorem run_succ_next {n : Nat} (h : Host.Core.run Sys2Proof.core (n + 1) s = .next t) :
    ∃ u, step s = .next u ∧ Host.Core.run Sys2Proof.core n u = .next t :=
  coreRun_succ_next Sys2Proof.core h

theorem run_mem_of_running {n : Nat}
    (hrun : ∀ m < n, ∀ u, Host.Core.run Sys2Proof.core m s = .next u → u.status = .running)
    (h : Host.Core.run Sys2Proof.core n s = .next t) : t.mem = s.mem := by
  induction n generalizing s with
  | zero => cases h; rfl
  | succ n ih =>
    obtain ⟨u, hu, ht⟩ := run_succ_next h
    have hs : s.status = .running := hrun 0 (Nat.succ_pos n) s rfl
    have hrest : ∀ m < n, ∀ w, Host.Core.run Sys2Proof.core m u = .next w → w.status = .running :=
      fun m hm w hw => hrun (m + 1) (Nat.succ_lt_succ hm) w ((run_next hu).trans hw)
    exact (ih hrest ht).trans (step_mem_of_running hs hu)

/-! ### The statements -/

/-- Settles O9: below 4096 the decoder's cell is the address itself, and a write is read back by `Memory.read_write`. -/
theorem memoryAccessesAreBounded : Obligations.MemoryAccessesAreBounded := by
  intro s a b hwf
  refine ⟨fun hle => ?_, fun hgt => ⟨memRead_of_ge s hgt, memWrite_of_ge b s hgt⟩⟩
  have hlt : a.toNat < 4096 := Nat.lt_succ_of_le hle
  exact ⟨memRead_of_lt s hlt, _, memWrite_of_lt b s hlt, Memory.read_write hwf, rfl⟩

/-- Settles O10: the two bounds tests together say that `pc` is at most 4094, which is where the fetch succeeds. -/
theorem fetchIsBigEndianAndBounded : Obligations.FetchIsBigEndianAndBounded := by
  intro s
  refine ⟨fun h0 h1 => ?_, fun hout => ?_, fun heven hle => ?_⟩
  · have hpc := (fetch_addresses_inBounds_iff s.pc).mp ⟨h0, h1⟩
    exact ⟨_, fetch_of_le hpc, by rw [wordOfBytes_toNat, toNat_add_one_of_le h0]⟩
  · have hpc : 4094 < s.pc.toNat := by
      have := fetch_addresses_inBounds_iff s.pc
      omega
    exact ⟨fetch_of_gt hpc, fun hr => step_of_fetch_fault hr hpc⟩
  · constructor <;> bv_omega

/-- Settles O27, by what an Operation can do (`execute_cases`): three of its four outcomes write one field that is
neither memory, stack, pointer nor `pc`, and the fourth writes registers alone. -/
theorem operationsLeaveMemoryStackAndPc : Obligations.OperationsLeaveMemoryStackAndPc := by
  intro op s t h
  obtain ⟨hop, he⟩ | ⟨hop, he⟩ | ⟨hop, he⟩ | ⟨_, _, -, -, he⟩ := execute_cases op s <;> cases he.symm.trans h
  · exact ⟨rfl, fun _ => rfl, rfl, rfl, rfl, rfl, fun _ => rfl, fun hne => absurd hop hne⟩
  · exact ⟨rfl, fun _ => rfl, rfl, rfl, rfl, rfl, fun _ => rfl, fun _ hne => absurd hop hne⟩
  · exact ⟨rfl, fun _ => rfl, rfl, rfl, rfl, rfl, fun hne => absurd hop hne, fun _ _ => rfl⟩
  · exact ⟨rfl, fun _ => rfl, rfl, rfl, rfl, rfl, fun _ => rfl, fun _ _ => rfl⟩

/-- Settles O29, by induction on the number of steps: each is a step of a running core, which leaves memory. -/
theorem runningStepsLeaveMemory : Obligations.RunningStepsLeaveMemory := by
  intro n s t hrun h a
  rw [run_mem_of_running hrun h]

end Sys2Proof.Machine
end

section
/-! PROOFS. The idioms of R61: what ADDI, MOV and SUB do with the operands that make them no-ops or a clear. -/

namespace Sys2Proof.Machine

/-- Writing one register changes no other register and no other field. -/
theorem setReg_onlyTheseRegsChanged (x : RegIdx) (b : Byte) (s : State) :
    OnlyTheseRegsChanged [x] s (s.setReg x b) := by
  refine ⟨⟨rfl, fun _ => rfl, rfl, rfl, rfl, rfl, rfl⟩, rfl, fun k hk => ?_⟩
  rw [setReg_getElem, if_neg (fun hkx => hk (List.mem_singleton.mpr hkx))]

theorem borrows_self (a : Byte) : borrows a a = false :=
  Bool.eq_false_iff.mpr fun h => Nat.lt_irrefl _ ((borrows_iff a a).mp h)

theorem exec_addi_zero (x : RegIdx) (s : State) : exec (.addi x 0) s = .next s := by
  rw [exec_addi, add_zero, setReg_self]

theorem exec_mov_self (x : RegIdx) (s : State) : exec (.mov x x) s = .next s := by
  rw [exec_mov, setReg_self]

/-- R61: equal operands never borrow (R132), so the flag is not written. -/
theorem exec_sub_self (x : RegIdx) (s : State) : exec (.sub x x) s = .next (s.setReg x 0) := by
  rw [exec_sub, borrows_self, BitVec.sub_self]
  rfl

/-- Settles O24: each idiom is a single register write, of the value already held for ADDI and MOV and of 0 for SUB. -/
theorem theIdiomsDoWhatTheyAreNamedFor : Obligations.TheIdiomsDoWhatTheyAreNamedFor := by
  intro x s
  refine ⟨exec_addi_zero x s, exec_mov_self x s, s.setReg x 0, exec_sub_self x s, ?_,
    setReg_onlyTheseRegsChanged x 0 s⟩
  rw [setReg_getElem, if_pos rfl]

end Sys2Proof.Machine
end

section
/-! PROOFS. The decoder: which arm answers for a word (R73), and that encoding inverts it (R76). -/

namespace Sys2Proof

/-! ### The arms of the decoder -/

theorem opMajor_eq_iff (w : Word) (op : BitVec 4) : opMajor w = op ↔ w.toNat / 4096 = op.toNat := by
  rw [← BitVec.toNat_inj, opMajor_toNat]

theorem opMinor_eq_iff (w : Word) (minor : BitVec 4) : opMinor w = minor ↔ w.toNat % 16 = minor.toNat := by
  rw [← BitVec.toNat_inj, opMinor_toNat]

/-- A major opcode takes the 4096 words of one range. -/
theorem opMajor_of_range {w : Word} {op : BitVec 4} (hlo : 4096 * op.toNat ≤ w.toNat)
    (hhi : w.toNat ≤ 4096 * op.toNat + 4095) : opMajor w = op := by
  rw [opMajor_eq_iff]
  omega

/-- The arms of R73, each with its guard made disjoint from the others, so that their order no longer matters. -/
inductive DecodeArm (w : Word) : Operation → Prop where
  | halt : w = 0x0000#16 → DecodeArm w (.encoded .halt)
  | ldi : opMajor w = 0x6#4 → DecodeArm w (.encoded (.ldi (fieldX w) (fieldByte w)))
  | addi : opMajor w = 0x7#4 → DecodeArm w (.encoded (.addi (fieldX w) (fieldByte w)))
  | mov : opMajor w = 0x8#4 → opMinor w = 0x0#4 → DecodeArm w (.encoded (.mov (fieldX w) (fieldY w)))
  | add : opMajor w = 0x8#4 → opMinor w = 0x4#4 → DecodeArm w (.encoded (.add (fieldX w) (fieldY w)))
  | sub : opMajor w = 0x8#4 → opMinor w = 0x5#4 → DecodeArm w (.encoded (.sub (fieldX w) (fieldY w)))
  | unknownMinor : opMajor w = 0x8#4 → opMinor w ≠ 0x0#4 → opMinor w ≠ 0x4#4 → opMinor w ≠ 0x5#4 →
      DecodeArm w .unimplemented
  | unknownMajor : w ≠ 0x0000#16 → opMajor w ≠ 0x6#4 → opMajor w ≠ 0x7#4 → opMajor w ≠ 0x8#4 →
      DecodeArm w .unimplemented

theorem decode_arm (w : Word) : DecodeArm w (decode w) := by
  unfold decode
  split_ifs with h0 h6 h7 h8 hmov hadd hsub
  · exact .halt h0
  · exact .ldi h6
  · exact .addi h7
  · exact .mov h8 hmov
  · exact .add h8 hadd
  · exact .sub h8 hsub
  · exact .unknownMinor h8 hmov hadd hsub
  · exact .unknownMajor h0 h6 h7 h8

/-- The zero word's major opcode is 0, which keeps Halt's arm apart from those of 6, 7 and 8. -/
theorem ne_zero_of_opMajor {w : Word} {op : BitVec 4} (h : opMajor w = op) (hop : op ≠ 0#4) : w ≠ 0x0000#16 := by
  rintro rfl
  exact hop h.symm

theorem DecodeArm.decode_eq {w : Word} {op : Operation} (h : DecodeArm w op) : decode w = op := by
  cases h with
  | halt h0 => rw [decode, if_pos h0]
  | ldi h6 => simp [decode, ne_zero_of_opMajor h6, h6]
  | addi h7 => simp [decode, ne_zero_of_opMajor h7, h7]
  | mov h8 hmov => simp [decode, ne_zero_of_opMajor h8, h8, hmov]
  | add h8 hadd => simp [decode, ne_zero_of_opMajor h8, h8, hadd]
  | sub h8 hsub => simp [decode, ne_zero_of_opMajor h8, h8, hsub]
  | unknownMinor h8 hmov hadd hsub => simp [decode, ne_zero_of_opMajor h8, h8, hmov, hadd, hsub]
  | unknownMajor h0 h6 h7 h8 => simp [decode, h0, h6, h7, h8]

/-! ### The encoder inverts the decoder -/

/-- A word is of format XKK with given contents exactly when those are its fields (R53): no bit is outside a field. -/
theorem formatXKK_eq_iff (op : BitVec 4) (x : RegIdx) (byte : Byte) (w : Word) :
    op ++ regField x ++ byte = w ↔ opMajor w = op ∧ fieldX w = x ∧ fieldByte w = byte := by
  rw [← BitVec.toNat_inj, formatXKK_toNat, opMajor_eq_iff, Fin.ext_iff, fieldX_val, ← BitVec.toNat_inj,
    fieldByte_toNat]
  omega

/-- A word is of format XYN with given contents exactly when those are its fields (R53). -/
theorem formatXYN_eq_iff (op : BitVec 4) (x y : RegIdx) (minor : BitVec 4) (w : Word) :
    op ++ regField x ++ regField y ++ minor = w ↔
      opMajor w = op ∧ fieldX w = x ∧ fieldY w = y ∧ opMinor w = minor := by
  rw [← BitVec.toNat_inj, formatXYN_toNat, opMajor_eq_iff, Fin.ext_iff, fieldX_val, Fin.ext_iff, fieldY_val,
    opMinor_eq_iff]
  omega

theorem DecodeArm.encode_eq {w : Word} {i : Instr} (h : DecodeArm w (.encoded i)) : encode i = w := by
  cases h with
  | halt h0 => exact h0.symm
  | ldi h6 => exact (formatXKK_eq_iff ..).mpr ⟨h6, rfl, rfl⟩
  | addi h7 => exact (formatXKK_eq_iff ..).mpr ⟨h7, rfl, rfl⟩
  | mov h8 hmov => exact (formatXYN_eq_iff ..).mpr ⟨h8, rfl, rfl, hmov⟩
  | add h8 hadd => exact (formatXYN_eq_iff ..).mpr ⟨h8, rfl, rfl, hadd⟩
  | sub h8 hsub => exact (formatXYN_eq_iff ..).mpr ⟨h8, rfl, rfl, hsub⟩

theorem decodeArm_of_encode_eq {w : Word} {i : Instr} (h : encode i = w) : DecodeArm w (.encoded i) := by
  cases i with
  | halt => exact .halt h.symm
  | ldi x byte =>
    obtain ⟨hop, rfl, rfl⟩ := (formatXKK_eq_iff _ _ _ w).mp h
    exact .ldi hop
  | addi x byte =>
    obtain ⟨hop, rfl, rfl⟩ := (formatXKK_eq_iff _ _ _ w).mp h
    exact .addi hop
  | mov x y =>
    obtain ⟨hop, rfl, rfl, hminor⟩ := (formatXYN_eq_iff _ _ _ _ w).mp h
    exact .mov hop hminor
  | add x y =>
    obtain ⟨hop, rfl, rfl, hminor⟩ := (formatXYN_eq_iff _ _ _ _ w).mp h
    exact .add hop hminor
  | sub x y =>
    obtain ⟨hop, rfl, rfl, hminor⟩ := (formatXYN_eq_iff _ _ _ _ w).mp h
    exact .sub hop hminor

/-- R76, both directions at once: the words that decode to `i` are the one word `encode i`. -/
theorem decode_eq_encoded_iff (w : Word) (i : Instr) : decode w = .encoded i ↔ encode i = w :=
  ⟨fun h => DecodeArm.encode_eq (h ▸ decode_arm w), fun h => (decodeArm_of_encode_eq h).decode_eq⟩

/-! ### The statements -/

/-- Settles O5: the fields of a word built from an instruction's operands are those operands. -/
theorem decodeOfEncodeIsTheInstruction : Obligations.DecodeOfEncodeIsTheInstruction := fun i =>
  (decode_eq_encoded_iff (encode i) i).mpr rfl

/-- Settles O6: the guard of an arm and the fields it passes on fix all 16 bits of the word. -/
theorem encodeOfDecodeIsTheWord : Obligations.EncodeOfDecodeIsTheWord := fun w i =>
  (decode_eq_encoded_iff w i).mp

/-- Settles O3: each numeric range is the guard of one arm, read through `opMajor` = word / 4096 and `opMinor` =
word modulo 16. -/
theorem decodeFollowsTheDispatchTable : Obligations.DecodeFollowsTheDispatchTable := by
  intro w
  refine ⟨fun h0 => ?_, fun hlo hhi => ?_, fun hlo hhi => ?_, fun hlo hhi hminor => ?_, fun hlo hhi hminor => ?_,
    fun hlo hhi hminor => ?_, fun hlo hhi hmov hadd hsub => ?_, fun h0 hout => ?_⟩
  · exact (DecodeArm.halt (BitVec.eq_of_toNat_eq h0)).decode_eq
  · exact ⟨_, _, (DecodeArm.ldi (opMajor_of_range hlo hhi)).decode_eq, fieldX_val w, fieldByte_toNat w⟩
  · exact ⟨_, _, (DecodeArm.addi (opMajor_of_range hlo hhi)).decode_eq, fieldX_val w, fieldByte_toNat w⟩
  · have hmov : opMinor w = 0x0#4 := (opMinor_eq_iff w _).mpr hminor
    exact ⟨_, _, (DecodeArm.mov (opMajor_of_range hlo hhi) hmov).decode_eq, fieldX_val w, fieldY_val w⟩
  · have hadd : opMinor w = 0x4#4 := (opMinor_eq_iff w _).mpr hminor
    exact ⟨_, _, (DecodeArm.add (opMajor_of_range hlo hhi) hadd).decode_eq, fieldX_val w, fieldY_val w⟩
  · have hsub : opMinor w = 0x5#4 := (opMinor_eq_iff w _).mpr hminor
    exact ⟨_, _, (DecodeArm.sub (opMajor_of_range hlo hhi) hsub).decode_eq, fieldX_val w, fieldY_val w⟩
  · exact (DecodeArm.unknownMinor (opMajor_of_range hlo hhi) (mt (opMinor_eq_iff w _).mp hmov)
      (mt (opMinor_eq_iff w _).mp hadd) (mt (opMinor_eq_iff w _).mp hsub)).decode_eq
  · have hne : w ≠ 0x0000#16 := fun hw => h0 (hw ▸ rfl)
    refine (DecodeArm.unknownMajor hne ?_ ?_ ?_).decode_eq <;> rw [Ne, opMajor_eq_iff] <;>
      simp only [BitVec.reduceToNat] <;> omega

/-- Settles O7: no arm answers ClearScreen. -/
theorem noWordDecodesToClearScreen : Obligations.NoWordDecodesToClearScreen := by
  intro w h
  have harm := decode_arm w
  rw [h] at harm
  cases harm

end Sys2Proof
end

section
/-! PROOFS. The execution cycle: the step of a running core, what an Operation's effect depends on, how a run ends, and
the direct-dispatch port. -/

namespace Sys2Proof.Machine

variable {s t : State}

/-! ### What an Operation can do -/

/-- Every Operation completes. -/
theorem execute_completes (op : Operation) (s : State) : ∃ t, execute op s = .next t := by
  obtain ⟨-, he⟩ | ⟨-, he⟩ | ⟨-, he⟩ | ⟨_, _, -, -, he⟩ := execute_cases op s <;> exact ⟨_, he⟩

/-- An instruction other than HALT maps the registers to registers by a function of its own, and nothing but the
registers enters into it. -/
theorem exec_regs_function (i : Instr) (hi : i ≠ .halt) :
    ∃ f : Vector Byte 16 → Vector Byte 16, ∀ s, exec i s = .next { s with v := f s.v } := by
  cases i with
  | halt => exact absurd rfl hi
  | ldi x byte => exact ⟨fun v => v.set x byte, exec_ldi x byte⟩
  | addi x byte => exact ⟨fun v => v.set x (v[x] + byte), exec_addi x byte⟩
  | mov x y => exact ⟨fun v => v.set x v[y], exec_mov x y⟩
  | add x y =>
    refine ⟨fun v => (v.set Config.flagReg (if carries v[x] v[y] then 1 else v[Config.flagReg])).set x (v[x] + v[y]),
      fun s => ?_⟩
    rw [exec_add, setFlagIf_eq]
    rfl
  | sub x y =>
    refine ⟨fun v => (v.set Config.flagReg (if borrows v[x] v[y] then 1 else v[Config.flagReg])).set x (v[x] - v[y]),
      fun s => ?_⟩
    rw [exec_sub, setFlagIf_eq]
    rfl

/-- An Operation acts on registers, display and status each by a function of that field alone, and leaves the rest:
no other field, the pending commands among them, has any influence. -/
theorem execute_fieldwise (op : Operation) :
    ∃ (f : Vector Byte 16 → Vector Byte 16) (d : Display → Display) (g : Status → Status),
      ∀ s, execute op s = .next { s with v := f s.v, disp := d s.disp, status := g s.status } := by
  cases op with
  | unimplemented => exact ⟨id, id, fun _ => .faulted .unimplementedOpcode, fun _ => rfl⟩
  | clearScreen => exact ⟨id, fun _ => Display.allOff, id, fun _ => rfl⟩
  | encoded i =>
    by_cases hi : i = .halt
    · subst hi
      exact ⟨id, id, fun _ => .halted, fun _ => rfl⟩
    · obtain ⟨f, hf⟩ := exec_regs_function i hi
      exact ⟨f, id, id, hf⟩

/-- The pending commands pass through an Operation: it neither consumes nor reads them. -/
theorem execute_withPending {op : Operation} (h : execute op s = .next t) (commands : List Command) :
    t.pending = s.pending ∧ execute op { s with pending := commands } = .next { t with pending := commands } := by
  obtain ⟨f, d, g, hop⟩ := execute_fieldwise op
  cases (hop s).symm.trans h
  exact ⟨rfl, hop { s with pending := commands }⟩

theorem execute_status {op : Operation} (h : execute op s = .next t) :
    t.status = s.status ∨ t.status = .halted ∨ t.status = .faulted .unimplementedOpcode := by
  obtain rfl | rfl | rfl | ⟨v, rfl⟩ := execute_next_cases h
  · exact .inr (.inl rfl)
  · exact .inr (.inr rfl)
  · exact .inl rfl
  · exact .inl rfl

/-! ### The step of a running core -/

theorem step_of_fetch (hr : s.status = .running) (h : s.pc.toNat ≤ 4094) :
    step s = execute (decode (wordOfBytes (Memory.read s.mem s.pc.toNat) (Memory.read s.mem (s.pc.toNat + 1))))
      s.advance := by
  rw [step_running hr, cycle_eq, if_pos h]

/-- The three ways a run can end (R96): Halt, or one of a run's two faults. -/
def State.RunEnded (t : State) : Prop :=
  t.status = .halted ∨ t.status = .faulted .unimplementedOpcode ∨ t.status = .faulted .fetchBounds

/-- A step that fetches in bounds ends the run or goes on two addresses further up. -/
theorem step_advances_or_ends (hr : s.status = .running) (h : s.pc.toNat ≤ 4094) :
    ∃ t, step s = .next t ∧ (t.RunEnded ∨ (t.status = .running ∧ t.pc.toNat = s.pc.toNat + 2)) := by
  rw [step_of_fetch hr h]
  obtain ⟨t, ht⟩ := execute_completes
    (decode (wordOfBytes (Memory.read s.mem s.pc.toNat) (Memory.read s.mem (s.pc.toNat + 1)))) s.advance
  refine ⟨t, ht, ?_⟩
  obtain hst | hhalt | hfault := execute_status ht
  · have hpc : t.pc.toNat = s.pc.toNat + 2 := by
      rw [execute_pc ht, advance_pc, Config.pcStep]
      bv_omega
    exact .inr ⟨hst.trans hr, hpc⟩
  · exact .inl (.inl hhalt)
  · exact .inl (.inr (.inl hfault))

/-- A run ends at the latest one step after the words from `pc` to the end of memory are used up. -/
theorem run_ends_of_words_left {k : Nat} (hr : s.status = .running) (hk : (4096 - s.pc.toNat) / 2 = k) :
    ∃ n t, n ≤ k + 1 ∧ Host.Core.run Sys2Proof.core n s = .next t ∧ t.RunEnded := by
  induction k generalizing s with
  | zero =>
    have hpc : 4094 < s.pc.toNat := by omega
    exact ⟨1, _, Nat.le_refl 1, run_next (step_of_fetch_fault hr hpc), .inr (.inr rfl)⟩
  | succ k ih =>
    have hpc : s.pc.toNat ≤ 4094 := by omega
    obtain ⟨t, ht, hend | ⟨hrun, hadd⟩⟩ := step_advances_or_ends hr hpc
    · exact ⟨1, t, by omega, run_next ht, hend⟩
    · obtain ⟨n, u, hn, hu, hend⟩ := ih hrun (by omega)
      exact ⟨n + 1, u, by omega, (run_next ht).trans hu, hend⟩

/-! ### The host's move -/

/-- A core that is Idle or Halted accepts every command (R178). -/
theorem accepts_of_idle_or_halted {st : Status} (h : st = .idle ∨ st = .halted) (c : Command) :
    accepts st c = true := by
  obtain rfl | rfl := h <;> rfl

/-- In Idle or Halted the step performs the command presented first. -/
theorem step_performs {c : Command} {rest : List Command} (hs : s.status = .idle ∨ s.status = .halted)
    (hp : s.pending = c :: rest) : step s = perform c { s with pending := rest } := by
  have hstopped : s.status ≠ .running := by
    obtain h | h := hs <;> simp [h]
  rw [step_stopped hstopped, hostMove_accepted hp (accepts_of_idle_or_halted hs c)]

/-! ### The statements -/

/-- Settles O36, by induction on the number of words from `pc` to the end of memory: each step that does not end the run
uses one up, and with none left the fetch faults. -/
theorem everyRunEnds : Obligations.EveryRunEnds := by
  intro s hr
  obtain ⟨n, t, hn, hrun, hend⟩ := run_ends_of_words_left hr rfl
  exact ⟨n, t, hn, by omega, hrun, hend⟩

/-- Settles O44: the command is accepted and its effect is `execute op`, which leaves `pc`. -/
theorem directDispatchDoesNotFetch : Obligations.DirectDispatchDoesNotFetch := by
  intro s op rest hs hp
  have hstep : step s = execute op { s with pending := rest } := step_performs hs hp
  obtain ⟨t, ht⟩ := execute_completes op { s with pending := rest }
  exact ⟨hstep, t, hstep.trans ht, (execute_pc ht :)⟩

/-- Settles O46, by the two cases of a running core's step: the fetch reads `pc` and memory only, and the Operation passes
the pending commands through. -/
theorem theHostHasNoMoveDuringARun : Obligations.TheHostHasNoMoveDuringARun := by
  intro s t commands hr h
  obtain ⟨-, hpc, he⟩ | ⟨-, hpc, rfl⟩ | ⟨hn, -⟩ := step_cases h
  · obtain ⟨hpend, hwith⟩ := execute_withPending he commands
    exact ⟨hpend, (step_of_fetch (s := { s with pending := commands }) hr hpc).trans hwith⟩
  · exact ⟨rfl, step_of_fetch_fault (s := { s with pending := commands }) hr hpc⟩
  · exact absurd hr hn

/-- Settles O11: below the last cell the step is the Operation of the word at `pc`, from the advanced state; above 4094 it
is the fetch's fault. -/
theorem stepRunsTheDecodedInstruction : Obligations.StepRunsTheDecodedInstruction := by
  intro s hr
  refine ⟨fun hpc => ⟨fun i hi => ?_, fun hun => ?_⟩, step_of_fetch_fault hr⟩
  · rw [step_of_fetch hr hpc, wordOfBytes, hi]
    rfl
  · rw [step_of_fetch hr hpc, wordOfBytes, hun]
    rfl

end Sys2Proof.Machine
end

section
/-! PROOFS. The operations without operands: Halt as the one way to end Halted, Unimplemented as the answer for a word of
no row, ClearScreen. -/

namespace Sys2Proof.Machine

variable {s t : State}

/-! ### The rows of the opcode table -/

theorem encode_matches_row (i : Instr) : encode i &&& i.row.2 = i.row.1 := by
  cases i with
  | halt => exact Laws.EncodesInRow.halt
  | ldi x byte => exact Laws.EncodesInRow.ldi x byte
  | addi x byte => exact Laws.EncodesInRow.addi x byte
  | mov x y => exact Laws.EncodesInRow.mov x y
  | add x y => exact Laws.EncodesInRow.add x y
  | sub x y => exact Laws.EncodesInRow.sub x y

theorem row_mem_tableRows (i : Instr) : i.row ∈ tableRows := by
  cases i <;> simp [Instr.row, tableRows]

/-- R57: a word that decoded to an instruction would be the encoding of it, and so match the instruction's row. -/
theorem decode_unimplemented_of_no_row {w : Word} (h : ∀ row ∈ tableRows, w &&& row.2 ≠ row.1) :
    decode w = .unimplemented := by
  cases hd : decode w with
  | unimplemented => rfl
  | clearScreen => exact absurd hd (noWordDecodesToClearScreen w)
  | encoded i =>
    have hw : encode i = w := (decode_eq_encoded_iff w i).mp hd
    exact absurd (hw ▸ encode_matches_row i) (h i.row (row_mem_tableRows i))

/-! ### The status writes -/

theorem setStatus_onlyStatusChanged (st : Status) (s : State) : OnlyStatusChanged s (s.setStatus st) :=
  ⟨⟨rfl, fun _ => rfl, rfl, rfl, rfl, rfl, rfl⟩, rfl⟩

theorem raise_onlyStatusChanged (kind : Fault) (s : State) : OnlyStatusChanged s (raise kind s) :=
  setStatus_onlyStatusChanged (.faulted kind) s

/-- Halt is the only Operation that makes a core Halted. -/
theorem eq_halt_of_execute_halted {op : Operation} (h : execute op s = .next t) (hs : s.status ≠ .halted)
    (ht : t.status = .halted) : op = .encoded .halt := by
  obtain ⟨hop, -⟩ | ⟨-, he⟩ | ⟨-, he⟩ | ⟨_, _, -, -, he⟩ := execute_cases op s
  · exact hop
  · cases he.symm.trans h
    cases ht
  · cases he.symm.trans h
    exact absurd ht hs
  · cases he.symm.trans h
    exact absurd ht hs

/-- R110, the only successful exit: the word 0000 is the only one that decodes to Halt. -/
theorem fetch_eq_zero_of_step_halted (hr : s.status = .running) (h : step s = .next t) (ht : t.status = .halted) :
    fetch s = .ok 0x0000#16 := by
  obtain ⟨-, hpc, he⟩ | ⟨-, -, rfl⟩ | ⟨hn, -⟩ := step_cases h
  · have hrun : s.advance.status ≠ .halted := by simp [hr]
    have hzero := (decode_eq_encoded_iff _ .halt).mp (eq_halt_of_execute_halted he hrun ht)
    rw [fetch_of_le hpc, ← hzero]
    rfl
  · cases ht
  · exact absurd hr hn

/-! ### The statements -/

/-- Settles O13: the step over two zero bytes is Halt's, and the converse is `fetch_eq_zero_of_step_halted`. -/
theorem haltEndsTheRun : Obligations.HaltEndsTheRun := by
  have hdecode : decode 0x0000#16 = .encoded .halt := decodeOfEncodeIsTheInstruction .halt
  refine ⟨rfl, hdecode, fun s => ⟨_, exec_halt s, rfl, setStatus_onlyStatusChanged .halted s⟩, fun s hr hpc h0 h1 => ?_,
    fun s t hr h ht => fetch_eq_zero_of_step_halted hr h ht⟩
  obtain ⟨hexec, -⟩ := (stepRunsTheDecodedInstruction s hr).1 hpc
  exact hexec .halt (by rw [h0, h1]; exact hdecode)

/-- Settles O14: a word of no row decodes to Unimplemented, whose step is the fault after the advance. -/
theorem unimplementedRaisesTheFault : Obligations.UnimplementedRaisesTheFault := by
  refine ⟨fun s => ⟨_, rfl, rfl, raise_onlyStatusChanged .unimplementedOpcode s⟩, fun s hr hpc hno => ?_⟩
  obtain ⟨-, hfault⟩ := (stepRunsTheDecodedInstruction s hr).1 hpc
  exact ⟨_, hfault (decode_unimplemented_of_no_row hno), rfl, rfl,
    raise_onlyStatusChanged .unimplementedOpcode { s with pc := s.pc + 2 }⟩

/-- Settles O15: the display becomes `Display.allOff`, whose pixels are all off (`allOff_pixel`). -/
theorem clearScreenTurnsEveryPixelOff : Obligations.ClearScreenTurnsEveryPixelOff := fun s =>
  ⟨s.clearDisplay, rfl, allOff_pixel, rfl, rfl, fun _ => rfl, rfl, rfl, rfl, rfl, rfl⟩

end Sys2Proof.Machine
end

section
/-! PROOFS. The immediate operations: the literal of a 6xkk or 7xkk word as operand, and the one register they write. -/

namespace Sys2Proof.Machine

theorem setReg_getElem_self (x : RegIdx) (b : Byte) (s : State) : (s.setReg x b).v[x] = b := by
  rw [setReg_getElem, if_pos rfl]

/-- Settles O17: the word is the encoding of ADDI, whose effect is one register write, of the sum as bytes; so no flag
is written (R121). -/
theorem addImmediateWrapsWithoutFlag : Obligations.AddImmediateWrapsWithoutFlag := by
  refine fun x byte => ⟨decodeOfEncodeIsTheInstruction (.addi x byte), fun s => ?_⟩
  refine ⟨s.setReg x (s.v[x] + byte), exec_addi x byte s, ?_, setReg_onlyTheseRegsChanged x _ s⟩
  rw [setReg_getElem_self, BitVec.toNat_add]

/-- Settles O16: the word is the encoding of LDI, whose effect is one register write, of the literal (R120). -/
theorem loadImmediateWritesTheLiteral : Obligations.LoadImmediateWritesTheLiteral := fun x byte =>
  ⟨decodeOfEncodeIsTheInstruction (.ldi x byte), fun s =>
    ⟨s.setReg x byte, exec_ldi x byte s, setReg_getElem_self x byte s, setReg_onlyTheseRegsChanged x byte s⟩⟩

end Sys2Proof.Machine
end

section
/-! PROOFS. The register-to-register operations: the flag write followed by the result write (D3), and the two flag tests
as the ninth bit of the 9-bit result (R133). -/

namespace Sys2Proof.Machine

/-! ### The flag write followed by the result write -/

/-- A destination other than the flag leaves `V[15]` as the flag write made it: set on an event, else kept. -/
theorem setFlagIf_setReg_flag {x : RegIdx} (hx : x ≠ 15) (e : Bool) (b : Byte) (s : State) :
    ((setFlagIf e s).setReg x b).v[(15 : RegIdx)] = if e = true then 1 else s.v[(15 : RegIdx)] := by
  rw [setReg_getElem, if_neg hx.symm, setFlagIf_getElem]
  simp only [and_true]

theorem setFlagIf_onlyTheseRegsChanged (e : Bool) (s : State) : OnlyTheseRegsChanged [15] s (setFlagIf e s) := by
  rw [setFlagIf_eq]
  exact setReg_onlyTheseRegsChanged Config.flagReg _ s

theorem setFlagIf_setReg_onlyTheseRegsChanged (e : Bool) (x : RegIdx) (b : Byte) (s : State) :
    OnlyTheseRegsChanged [x, 15] s ((setFlagIf e s).setReg x b) := by
  obtain ⟨hrest, hstatus, hflag⟩ := setFlagIf_onlyTheseRegsChanged e s
  refine ⟨hrest, hstatus, fun k hk => ?_⟩
  rw [setReg_getElem, if_neg (List.ne_of_not_mem_cons hk), hflag k (List.not_mem_of_not_mem_cons hk)]

/-! ### The 9-bit sum and difference -/

/-- No 9-bit sum of two bytes wraps: it is the true sum. -/
theorem sum9_toNat (a b : Byte) : (sum9 a b).toNat = a.toNat + b.toNat := by
  have := a.isLt; have := b.isLt
  simp only [sum9, zext9, BitVec.toNat_add, BitVec.toNat_setWidth]
  omega

theorem diff9_toNat (a b : Byte) : (diff9 a b).toNat = (512 + a.toNat - b.toNat) % 512 := by
  have := a.isLt; have := b.isLt
  simp only [diff9, zext9, BitVec.toNat_sub, BitVec.toNat_setWidth]
  omega

/-- Bit 8 is the top bit of a 9-bit value, so it tells the values from 256 up. -/
theorem ninthBit_iff (r : BitVec 9) : r.getLsbD 8 = true ↔ 256 ≤ r.toNat := by
  rw [← decide_eq_true_iff (p := 256 ≤ r.toNat), ← BitVec.msb_eq_decide r, BitVec.msb_eq_getLsbD_last]

theorem carries_eq_ninthBit (a b : Byte) : carries a b = (sum9 a b).getLsbD 8 := by
  rw [Bool.eq_iff_iff, carries_iff, ninthBit_iff, sum9_toNat]
  omega

/-- A negative difference lies in the upper half modulo 512, any other in the lower. -/
theorem borrows_eq_ninthBit (a b : Byte) : borrows a b = (diff9 a b).getLsbD 8 := by
  have := a.isLt; have := b.isLt
  rw [Bool.eq_iff_iff, borrows_iff, ninthBit_iff, diff9_toNat]
  omega

/-! ### The statements -/

/-- Settles O19: the carry test decides the flag write, and the sum's write cannot reach the flag as `x` is not 15. -/
theorem addWrapsAndSetsTheCarry : Obligations.AddWrapsAndSetsTheCarry := by
  intro x y s hx
  refine ⟨_, exec_add x y s, ?_, fun hcarry => ?_, fun hfits => ?_, setFlagIf_setReg_onlyTheseRegsChanged _ x _ s⟩
  · rw [setReg_getElem_self, BitVec.toNat_add]
  · rw [setFlagIf_setReg_flag hx, if_pos ((carries_iff _ _).mpr hcarry)]
  · rw [setFlagIf_setReg_flag hx, if_neg (mt (carries_iff _ _).mp hfits.not_gt)]

/-- Settles O21: the borrow test decides the flag write, and the difference's write cannot reach the flag as `x` is
not 15. -/
theorem subWrapsAndSetsTheBorrow : Obligations.SubWrapsAndSetsTheBorrow := by
  intro x y s hx
  refine ⟨_, exec_sub x y s, ?_, fun hborrow => ?_, fun hfits => ?_, setFlagIf_setReg_onlyTheseRegsChanged _ x _ s⟩
  · have := s.v[y].isLt
    rw [setReg_getElem_self, BitVec.toNat_sub]
    omega
  · rw [setFlagIf_setReg_flag hx, if_pos ((borrows_iff _ _).mpr hborrow)]
  · rw [setFlagIf_setReg_flag hx, if_neg (mt (borrows_iff _ _).mp hfits.not_gt)]

/-- Settles O23: the sum and difference of the statement are `sum9` and `diff9` by definition. -/
theorem carryAndBorrowAreTheNinthBits : Obligations.CarryAndBorrowAreTheNinthBits := fun a b =>
  ⟨carries_eq_ninthBit a b, borrows_eq_ninthBit a b⟩

/-- Settles O18: the word is the encoding of MOV, whose effect is one register write, of the byte `V[y]` holds (R130). -/
theorem copyOverwritesTheDestination : Obligations.CopyOverwritesTheDestination := fun x y =>
  ⟨decodeOfEncodeIsTheInstruction (.mov x y), fun s =>
    ⟨s.setReg x s.v[y], exec_mov x y s, setReg_getElem_self x _ s, setReg_onlyTheseRegsChanged x _ s⟩⟩

end Sys2Proof.Machine
end

section
/-! PROOFS. The exceptions: which faults a run can latch and from where, and what the state they leave tells. -/

namespace Sys2Proof.Machine

variable {s t : State}

/-! ### The faults of a run -/

/-- Unimplemented is the only Operation that latches a fault. -/
theorem unimplemented_of_execute_faulted {op : Operation} {kind : Fault} (h : execute op s = .next t) (hs : s.FaultFree)
    (ht : t.status = .faulted kind) : op = .unimplemented ∧ t = raise .unimplementedOpcode s := by
  obtain ⟨-, he⟩ | ⟨hop, he⟩ | ⟨-, he⟩ | ⟨_, _, -, -, he⟩ := execute_cases op s <;> cases he.symm.trans h
  · cases ht
  · exact ⟨hop, rfl⟩
  · exact absurd ht (hs kind)
  · exact absurd ht (hs kind)

/-- R141, R143: where the faults of a run come from. FetchBounds is the fetch's, before the advance; UnimplementedOpcode
is the dispatch's, after it. `load` is the only source of LoadBounds, and a running core takes no command (R178). -/
inductive RunFault (s : State) : Fault → State → Prop where
  | fetchBounds : 4094 < s.pc.toNat → RunFault s .fetchBounds (raise .fetchBounds s)
  | unimplementedOpcode : s.pc.toNat ≤ 4094 →
      decode (wordOfBytes (Memory.read s.mem s.pc.toNat) (Memory.read s.mem (s.pc.toNat + 1))) = .unimplemented →
      RunFault s .unimplementedOpcode (raise .unimplementedOpcode s.advance)

theorem runFault_of_step_faulted {kind : Fault} (hr : s.status = .running) (h : step s = .next t)
    (ht : t.status = .faulted kind) : RunFault s kind t := by
  obtain ⟨-, hpc, he⟩ | ⟨-, hpc, rfl⟩ | ⟨hn, -⟩ := step_cases h
  · have hfree : s.advance.FaultFree := fun _ => by simp [hr]
    obtain ⟨hop, rfl⟩ := unimplemented_of_execute_faulted he hfree ht
    cases ht
    exact .unimplementedOpcode hpc hop
  · cases ht
    exact .fetchBounds hpc
  · exact absurd hr hn

/-! ### Where a run's fetch can fault -/

theorem Reachable.inv (hs : Reachable s) : s.Inv :=
  hs.invariant (fun _ _ => ⟨rfl, rfl, Nat.zero_le 4096⟩) everyStepKeepsTheInvariant

/-- 4096 is the only even address from 4095 up that the invariant leaves `pc` (R16). -/
theorem State.Inv.pc_eq_of_gt (hs : s.Inv) (hpc : 4094 < s.pc.toNat) : s.pc = 4096 := by
  obtain ⟨-, heven, hle⟩ := hs
  bv_omega

/-! ### The word before the advance -/

theorem advance_pc_sub_two (s : State) : s.advance.pc - 2 = s.pc :=
  BitVec.add_sub_cancel s.pc 2

/-- The second byte of the word fetched is one below the advanced `pc`. -/
theorem advance_pc_sub_one_toNat (h : s.pc.toNat ≤ 4094) : (s.advance.pc - 1).toNat = s.pc.toNat + 1 := by
  rw [advance_pc, Config.pcStep]
  bv_omega

/-! ### The statements -/

/-- Settles O35: the fetch is the only source of FetchBounds in a run, and the invariant leaves a reachable core one `pc`
at which it faults. -/
theorem fetchFaultsOnlyAtTheEndOfMemory : Obligations.FetchFaultsOnlyAtTheEndOfMemory := by
  refine ⟨fun s hr hout => ?_, fun s t hs hr h ht => ?_⟩
  · obtain ⟨-, hfault, -⟩ := fetchIsBigEndianAndBounded s
    exact (hfault hout).2 hr
  · cases runFault_of_step_faulted hr h ht with
    | fetchBounds hpc => exact ⟨hs.inv.pc_eq_of_gt hpc, rfl⟩

/-- Settles O37, by the two faults of a run: FetchBounds leaves `pc` where the fetch was, UnimplementedOpcode two past it,
and neither writes memory. -/
theorem faultAddressIsRecoverable : Obligations.FaultAddressIsRecoverable := by
  intro s t kind hr h ht
  cases runFault_of_step_faulted hr h ht with
  | fetchBounds => exact ⟨rfl, nofun⟩
  | unimplementedOpcode hpc hdecode =>
    refine ⟨congrArg some (advance_pc_sub_two s), fun _ => ?_⟩
    rw [raise_pc, raise_mem, advance_mem, advance_pc_sub_two, advance_pc_sub_one_toNat hpc]
    exact ⟨fetch_of_le hpc, hdecode⟩

end Sys2Proof.Machine
end

section
/-! PROOFS. The host's commands: `reset`, which leaves the display and done twice does no more, and `load` then `run` from
creation. -/

namespace Sys2Proof.Machine

variable {s t : State}

/-! ### reset -/

/-- Only a running core takes no `reset` (R178). -/
theorem accepts_reset {st : Status} (h : st ≠ .running) : accepts st .reset = true := by
  cases st with
  | running => exact absurd rfl h
  | idle => rfl
  | halted => rfl
  | faulted => rfl

theorem step_reset {rest : List Command} (hr : s.status ≠ .running) (hp : s.pending = .reset :: rest) :
    step s = .next (resetCommand { s with pending := rest }) := by
  rw [step_stopped hr, hostMove_accepted hp (accepts_reset hr), perform]

/-- The one field of the core that `reset` keeps is the display (R172), and an earlier `reset` has kept it too (R173). -/
theorem resetCommand_of_resetCommand (s : State) (commands : List Command) :
    resetCommand { resetCommand s with pending := commands } = resetCommand { s with pending := commands } := rfl

/-! ### Writes to the display -/

/-- ClearScreen is the only Operation that writes the display (R20). -/
theorem eq_clearScreen_of_execute_disp_ne {op : Operation} (h : execute op s = .next t) (hd : t.disp ≠ s.disp) :
    op = .clearScreen := by
  obtain ⟨-, -, -, -, -, -, hdisp, -⟩ := operationsLeaveMemoryStackAndPc op s t h
  by_contra hop
  exact hd (hdisp hop)

/-- Of the host's moves direct dispatch alone reaches the display. -/
theorem HostMove.clearScreen_of_disp_ne (h : HostMove s t) (hd : t.disp ≠ s.disp) :
    s.pending.head? = some (.execute .clearScreen) := by
  cases h with
  | retained => exact absurd rfl hd
  | refused => exact absurd rfl hd
  | reset => exact absurd rfl hd
  | load => exact absurd (loadCommand_disp _ _) hd
  | run => exact absurd rfl hd
  | execute hp _ he => rw [hp, List.head?_cons, eq_clearScreen_of_execute_disp_ne he hd]

/-- A running core writes no pixel: no word decodes to ClearScreen (R77). -/
theorem step_disp_of_running (hr : s.status = .running) (h : step s = .next t) : t.disp = s.disp := by
  obtain ⟨-, -, he⟩ | ⟨-, -, rfl⟩ | ⟨hn, -⟩ := step_cases h
  · by_contra hd
    exact noWordDecodesToClearScreen _ (eq_clearScreen_of_execute_disp_ne he hd)
  · rfl
  · exact absurd hr hn

/-- The display changes only in a stopped core, by a ClearScreen of the direct-dispatch port. -/
theorem clearScreen_of_step_disp_ne (h : step s = .next t) (hd : t.disp ≠ s.disp) :
    s.pending.head? = some (.execute .clearScreen) ∧ s.status ≠ .running := by
  have hr : s.status ≠ .running := fun hrun => hd (step_disp_of_running hrun h)
  rw [step_stopped hr] at h
  exact ⟨(hostMove_cases h).clearScreen_of_disp_ne hd, hr⟩

/-! ### load, then run -/

/-- An accepted `load` that fits writes memory alone: the image from address 0 up, the rest as it was (R174, R176). -/
theorem step_load {bytes : List Byte} {rest : List Command} (hs : s.status = .idle ∨ s.status = .halted)
    (hwf : Memory.wf s.mem = true) (hp : s.pending = .load bytes :: rest) (hlen : bytes.length ≤ 4096) :
    ∃ m, step s = .next { s with mem := m, pending := rest } ∧
      ∀ a, Memory.read m a = if h : a < bytes.length then bytes[a] else Memory.read s.mem a := by
  obtain ⟨-, m, hload, hspec⟩ | ⟨hgt, -⟩ := loadCommand_cases bytes { s with pending := rest }
  · exact ⟨m, by rw [step_performs hs hp, perform, hload], (hspec hwf).2⟩
  · omega

theorem step_run {rest : List Command} (hs : s.status = .idle ∨ s.status = .halted) (hp : s.pending = .run :: rest) :
    step s = .next { s with status := .running, pending := rest } :=
  step_performs hs hp

/-! ### The statements -/

/-- Settles O39: `reset` copies the display over, and a step that changes the display can only have turned it off, by
ClearScreen. -/
theorem theDisplayPersistsAcrossReset : Obligations.TheDisplayPersistsAcrossReset := by
  refine ⟨fun s t hr hp h r c => ?_, rfl, fun s t h hd => ?_⟩
  · obtain ⟨rest, hpend⟩ := List.head?_eq_some_iff.mp hp
    cases (step_reset hr hpend).symm.trans h
    rfl
  · exact ⟨(step_disp h).resolve_left hd, clearScreen_of_step_disp_ne h hd⟩

/-- Settles O40: the first `reset` leaves the core Idle, so the second is accepted too. -/
theorem resetIsIdempotent : Obligations.ResetIsIdempotent := by
  intro s rest hr
  refine ⟨resetCommand { s with pending := rest }, ?_, ?_⟩
  · exact run_next (step_reset (s := { s with pending := .reset :: rest }) hr rfl)
  · have hfirst := step_reset (s := { s with pending := .reset :: .reset :: rest }) hr rfl
    have hsecond := step_reset (s := resetCommand { s with pending := .reset :: rest }) (by simp) rfl
    rw [resetCommand_of_resetCommand] at hsecond
    exact (run_next hfirst).trans (run_next hsecond)

/-- Settles O47: `load` writes memory alone, over the empty memory of creation, and `run` the status alone, so `pc` and the
registers are creation's zeros. -/
theorem bootRunsFromAddressZero : Obligations.BootRunsFromAddressZero := by
  intro dispLaunch bytes hlen
  obtain ⟨m, hload, hread⟩ :=
    step_load (s := { State.launch dispLaunch with pending := [.load bytes, .run] }) (.inl rfl) rfl rfl hlen
  have hrun := step_run (s := { State.launch dispLaunch with mem := m, pending := [.run] }) (.inl rfl) rfl
  obtain ⟨hregs, -⟩ := creationLeavesEverythingZero
  refine ⟨_, (run_next hload).trans (run_next hrun), rfl, rfl, hregs, rfl, fun i hi => ?_, fun a ha => ?_⟩
  · rw [hread, dif_pos hi]
  · rw [hread, dif_neg (Nat.not_lt_of_ge ha)]
    exact Memory.read_nil a

end Sys2Proof.Machine
end

section
/-! PROOFS. The rows of the opcode table as fields of the word, the flag write that a result into `V[15]` overwrites,
what a step never reads or writes, the host's commands by status, and canonical memories as their contents. -/

namespace Sys2Proof

/-! ### The masks of the opcode table -/

/-- The mask F000 keeps the major opcode (R55). -/
theorem and_majorMask (w : Word) : w &&& 0xF000#16 = opMajor w ++ 0#12 := by
  apply BitVec.eq_of_getLsbD_eq
  intro i hi
  simp only [opMajor, BitVec.getLsbD_and, BitVec.getLsbD_append, BitVec.getLsbD_extractLsb']
  interval_cases i <;> simp

/-- The mask F00F keeps the major and the minor opcode (R55). -/
theorem and_majorMinorMask (w : Word) : w &&& 0xF00F#16 = opMajor w ++ 0#8 ++ opMinor w := by
  apply BitVec.eq_of_getLsbD_eq
  intro i hi
  simp only [opMajor, opMinor, BitVec.getLsbD_and, BitVec.getLsbD_append, BitVec.getLsbD_extractLsb']
  interval_cases i <;> simp

theorem and_majorMask_eq_iff (w : Word) (op : BitVec 4) : w &&& 0xF000#16 = op ++ 0#12 ↔ opMajor w = op := by
  rw [and_majorMask, ← BitVec.toNat_inj, ← BitVec.toNat_inj, toNat_append_add, toNat_append_add]
  omega

theorem and_majorMinorMask_eq_iff (w : Word) (op minor : BitVec 4) :
    w &&& 0xF00F#16 = op ++ 0#8 ++ minor ↔ opMajor w = op ∧ opMinor w = minor := by
  rw [and_majorMinorMask, ← BitVec.toNat_inj, ← BitVec.toNat_inj, ← BitVec.toNat_inj]
  simp only [toNat_append_add]
  omega

/-- A word that matches a row is decoded by the row's arm: match and mask state the arm's guard (R55, R73). -/
theorem decode_encoded_of_row {w : Word} {row : Word × Word} (hrow : row ∈ Machine.tableRows)
    (h : w &&& row.2 = row.1) : ∃ i, decode w = .encoded i := by
  simp only [Machine.tableRows, List.mem_cons, List.not_mem_nil, or_false] at hrow
  obtain rfl | rfl | rfl | rfl | rfl | rfl := hrow
  · have hzero : w = 0x0000#16 := (BitVec.and_allOnes (x := w)).symm.trans h
    exact ⟨_, (DecodeArm.halt hzero).decode_eq⟩
  · exact ⟨_, (DecodeArm.ldi ((and_majorMask_eq_iff w 0x6#4).mp h)).decode_eq⟩
  · exact ⟨_, (DecodeArm.addi ((and_majorMask_eq_iff w 0x7#4).mp h)).decode_eq⟩
  · obtain ⟨hop, hminor⟩ := (and_majorMinorMask_eq_iff w 0x8#4 0x0#4).mp h
    exact ⟨_, (DecodeArm.mov hop hminor).decode_eq⟩
  · obtain ⟨hop, hminor⟩ := (and_majorMinorMask_eq_iff w 0x8#4 0x4#4).mp h
    exact ⟨_, (DecodeArm.add hop hminor).decode_eq⟩
  · obtain ⟨hop, hminor⟩ := (and_majorMinorMask_eq_iff w 0x8#4 0x5#4).mp h
    exact ⟨_, (DecodeArm.sub hop hminor).decode_eq⟩

/-! ### The bytes of a table word -/

/-- The two bytes the hardware stores for a word are read back as that word (R34). -/
theorem wordOfBytes_tableBytes (w : Word) :
    wordOfBytes (tableBytes 16 w.toNat).1 (tableBytes 16 w.toNat).2 = w := by
  have := w.isLt
  rw [← BitVec.toNat_inj, wordOfBytes_toNat]
  simp only [tableBytes, BitVec.extractLsb'_toNat, BitVec.toNat_ofNat, Nat.shiftRight_eq_div_pow]
  omega

theorem decodeTableWord_eq_some_iff (nbits w : Nat) (i : Instr) :
    decodeTableWord nbits w = some i ↔
      decode (wordOfBytes (tableBytes nbits w).1 (tableBytes nbits w).2) = .encoded i := by
  unfold decodeTableWord
  cases decode (wordOfBytes (tableBytes nbits w).1 (tableBytes nbits w).2) <;> simp

/-! ### The statements about the decoder -/

/-- Settles O4: a row that matched would have an instruction as the word's decoding; the other direction is
`decode_unimplemented_of_no_row`. -/
theorem unimplementedIffNoRowMatches : Obligations.UnimplementedIffNoRowMatches := by
  refine fun w => ⟨fun hun row hrow h => ?_, Machine.decode_unimplemented_of_no_row⟩
  obtain ⟨i, hi⟩ := decode_encoded_of_row hrow h
  rw [hun] at hi
  cases hi

/-- Settles O8: the word's bytes, in the order they are stored, are put together as the word again. -/
theorem tableWordIsTheDecodedWord : Obligations.TableWordIsTheDecodedWord := by
  intro w i
  rw [decodeTableWord_eq_some_iff, wordOfBytes_tableBytes]

/-- Settles O2: six of the words are the encodings of their instructions, the other two match no row of the table. -/
theorem writtenOutWordsDecode : Obligations.WrittenOutWordsDecode := by
  simp only [Obligations.WrittenOutWordsDecode, decode_eq_encoded_iff, unimplementedIffNoRowMatches _]
  refine ⟨rfl, rfl, rfl, rfl, rfl, rfl, ?_, ?_⟩ <;> simp [Machine.tableRows]

end Sys2Proof

namespace Sys2Proof.Machine

variable {s t : State}

/-! ### A result into the flag register -/

/-- D3: the result is written after the flag, so a result into `V[15]` leaves nothing of the flag write. -/
theorem setFlagIf_setReg_flagReg (e : Bool) (b : Byte) (s : State) : (setFlagIf e s).setReg 15 b = s.setReg 15 b := by
  rw [setFlagIf_eq, State.setReg, State.setReg]
  congr 1
  exact Vector.set_set ..

theorem exec_add_flagReg (y : RegIdx) (s : State) :
    exec (.add 15 y) s = .next (s.setReg 15 (s.v[(15 : RegIdx)] + s.v[y])) := by
  rw [exec_add, setFlagIf_setReg_flagReg]

theorem exec_sub_flagReg (y : RegIdx) (s : State) :
    exec (.sub 15 y) s = .next (s.setReg 15 (s.v[(15 : RegIdx)] - s.v[y])) := by
  rw [exec_sub, setFlagIf_setReg_flagReg]

/-- Settles O20: the flag write is overwritten, which leaves a single register write, of the sum. -/
theorem addIntoTheFlagRegisterLeavesTheSum : Obligations.AddIntoTheFlagRegisterLeavesTheSum := by
  refine fun y s => ⟨_, exec_add_flagReg y s, ?_, setReg_onlyTheseRegsChanged 15 _ s⟩
  rw [setReg_getElem_self, BitVec.toNat_add]

/-- Settles O22: the flag write is overwritten, which leaves a single register write, of the difference. -/
theorem subIntoTheFlagRegisterLeavesTheDifference : Obligations.SubIntoTheFlagRegisterLeavesTheDifference := by
  refine fun y s => ⟨_, exec_sub_flagReg y s, ?_, setReg_onlyTheseRegsChanged 15 _ s⟩
  have := s.v[y].isLt
  rw [setReg_getElem_self, BitVec.toNat_sub]
  omega

/-! ### Every step completes -/

theorem perform_completes (c : Command) (s : State) : ∃ t, perform c s = .next t := by
  cases c with
  | reset => exact ⟨_, rfl⟩
  | load bytes => exact ⟨_, rfl⟩
  | run => exact ⟨_, rfl⟩
  | execute op => exact execute_completes op s

theorem hostMove_completes (s : State) : ∃ t, hostMove s = .next t := by
  cases hp : s.pending with
  | nil => exact ⟨_, hostMove_nil hp⟩
  | cons c rest =>
    cases ha : accepts s.status c with
    | false => exact ⟨_, hostMove_refused hp ha⟩
    | true => rw [hostMove_accepted hp ha]; exact perform_completes c _

theorem cycle_completes (s : State) : ∃ t, cycle s = .next t := by
  rw [cycle_eq]
  split_ifs
  · exact execute_completes _ _
  · exact ⟨_, rfl⟩

theorem step_completes (s : State) : ∃ t, step s = .next t := by
  by_cases hr : s.status = .running
  · rw [step_running hr]
    exact cycle_completes s
  · rw [step_stopped hr]
    exact hostMove_completes s

/-- Settles O28: a fault is a next state, a refused command too, and a stopped core with no command stays. -/
theorem everyOperationAndStepCompletes : Obligations.EveryOperationAndStepCompletes :=
  ⟨execute_completes, step_completes⟩

/-! ### The call stack and the display in a run -/

/-- An Operation other than ClearScreen passes the call stack, its pointer and the display through and reads none of
them. -/
theorem execute_withStackAndDisplay {op : Operation} (hop : op ≠ .clearScreen) (h : execute op s = .next t)
    (stack : Vector Word 16) (sp : BitVec 4) (disp : Display) :
    execute op { s with stack := stack, sp := sp, disp := disp } =
      .next { t with stack := stack, sp := sp, disp := disp } := by
  obtain ⟨f, d, g, hf⟩ := execute_fieldwise op
  cases (hf s).symm.trans h
  have hwith := hf { s with stack := stack, sp := sp, disp := disp }
  have hdisp : d disp = disp := by
    by_contra hd
    exact hop (eq_clearScreen_of_execute_disp_ne hwith hd)
  rw [hwith, hdisp]

/-- Settles O30, by the two cases of a running core's step: the fetch reads `pc` and memory only, and no word decodes to
ClearScreen (R77), the one Operation that would not pass the display through. -/
theorem stackAndDisplayAreNeverRead : Obligations.StackAndDisplayAreNeverRead := by
  intro s t stack sp disp hr h
  obtain ⟨-, hpc, he⟩ | ⟨-, hpc, rfl⟩ | ⟨hn, -⟩ := step_cases h
  · rw [step_of_fetch (s := { s with stack := stack, sp := sp, disp := disp }) hr hpc]
    exact execute_withStackAndDisplay (noWordDecodesToClearScreen _) he stack sp disp
  · exact step_of_fetch_fault (s := { s with stack := stack, sp := sp, disp := disp }) hr hpc
  · exact absurd hr hn

/-! ### The call stack in the reachable states -/

/-- `StackZero` speaks of the call stack and its pointer alone. -/
theorem State.StackZero.of_eq (hs : s.StackZero) (hstack : t.stack = s.stack) (hsp : t.sp = s.sp) : t.StackZero := by
  rw [State.StackZero, hstack, hsp]
  exact hs

theorem State.StackZero.execute {op : Operation} (hs : s.StackZero) (h : execute op s = .next t) : t.StackZero := by
  obtain ⟨-, -, hstack, hsp, -⟩ := operationsLeaveMemoryStackAndPc op s t h
  exact hs.of_eq hstack hsp

theorem loadCommand_stack (bytes : List Byte) (s : State) : (loadCommand bytes s).stack = s.stack := by
  obtain ⟨-, m, hm, -⟩ | ⟨-, hm⟩ := loadCommand_cases bytes s <;> simp [hm]

theorem loadCommand_sp (bytes : List Byte) (s : State) : (loadCommand bytes s).sp = s.sp := by
  obtain ⟨-, m, hm, -⟩ | ⟨-, hm⟩ := loadCommand_cases bytes s <;> simp [hm]

theorem HostMove.stackZero (h : HostMove s t) (hs : s.StackZero) : t.StackZero := by
  cases h with
  | retained => exact hs
  | refused => exact hs
  | reset => exact ⟨rfl, rfl⟩
  | load => exact hs.of_eq (loadCommand_stack _ _) (loadCommand_sp _ _)
  | run => exact hs
  | @execute _ rest _ _ _ he => exact State.StackZero.execute (s := { s with pending := rest }) hs he

/-- Nothing pushes: the one writer of the call stack is `reset`, which zeroes it. -/
theorem step_stackZero (hs : s.StackZero) (h : step s = .next t) : t.StackZero := by
  obtain ⟨-, -, he⟩ | ⟨-, -, rfl⟩ | ⟨-, hm⟩ := step_cases h
  · exact State.StackZero.execute (s := s.advance) hs he
  · exact hs
  · exact hm.stackZero hs

/-- Settles O34: both parts hold at every launch and are kept by every step. -/
theorem reachableStatesKeepPcAndStack : Obligations.ReachableStatesKeepPcAndStack := by
  intro s hs
  obtain ⟨-, heven, hle⟩ := hs.inv
  exact ⟨heven, hle, hs.invariant (fun _ _ => ⟨rfl, rfl⟩) fun _ _ => step_stackZero⟩

/-- Settles O32: no cell is listed at creation and `pc` is 0. -/
theorem creationHasTheInvariant : Obligations.CreationHasTheInvariant :=
  ⟨Memory.wf_nil, rfl, Nat.zero_le 4096⟩

/-! ### The host's commands -/

/-- Settles O41, by `step_load`: memory alone changes, the image below its length and the prior bytes from there. -/
theorem loadCopiesTheImage : Obligations.LoadCopiesTheImage := by
  intro s bytes rest hs hwf hp hlen
  obtain ⟨m, hstep, hread⟩ := step_load hs hwf hp hlen
  refine ⟨_, hstep, fun i hi => ?_, fun a ha => ?_, rfl, rfl, rfl, rfl, rfl, rfl, rfl, rfl⟩
  · rw [hread, dif_pos hi]
  · rw [hread, dif_neg (Nat.not_lt_of_ge ha)]

/-- An accepted `load` that does not fit is a fault over unspecified memory (R175). -/
theorem step_load_tooLong {bytes : List Byte} {rest : List Command} (hs : s.status = .idle ∨ s.status = .halted)
    (hp : s.pending = .load bytes :: rest) (hlen : 4096 < bytes.length) :
    step s = .next (raise .loadBounds { s with pending := rest }.forgetMemory) := by
  obtain ⟨hle, -⟩ | ⟨-, hload⟩ := loadCommand_cases bytes { s with pending := rest }
  · exact absurd hlen (Nat.not_lt_of_ge hle)
  · rw [step_performs hs hp, perform, hload]

/-- Settles O42: the fault writes `status` and the unspecified memory is canonical whatever it holds. -/
theorem loadThatIsTooLongFaults : Obligations.LoadThatIsTooLongFaults := fun s _ rest hs hp hlen =>
  ⟨_, step_load_tooLong hs hp hlen, rfl, rfl, rfl, rfl, rfl, rfl, rfl, forgetMemory_wf { s with pending := rest }⟩

/-- The row Faulted of the acceptance table (R178). -/
theorem accepts_faulted_iff (kind : Fault) (c : Command) : accepts (.faulted kind) c = true ↔ c = .reset := by
  cases c <;> simp [accepts]

/-- Of the host's moves only a presented `reset` takes a fault away (R151). -/
theorem HostMove.faulted_or_reset {kind : Fault} (h : HostMove s t) (hs : s.status = .faulted kind) :
    t.status = .faulted kind ∨ s.pending.head? = some .reset := by
  have honly : ∀ c, accepts s.status c = true → c = .reset := fun c => hs ▸ (accepts_faulted_iff kind c).mp
  cases h with
  | retained => exact .inl hs
  | refused => exact .inl hs
  | reset hp => exact .inr (by rw [hp]; rfl)
  | load _ ha => cases honly _ ha
  | run _ ha => cases honly _ ha
  | execute _ ha => cases honly _ ha

/-- Settles O45: the row Faulted of the acceptance table has `reset` alone, and a refused command changes nothing. -/
theorem aFaultedCoreAcceptsOnlyReset : Obligations.AFaultedCoreAcceptsOnlyReset := by
  intro s kind hs
  have hr : s.status ≠ .running := by simp [hs]
  simp only [step_stopped hr]
  refine ⟨fun c rest hp hc => hostMove_refused hp ?_, fun t h => (hostMove_cases h).faulted_or_reset hs⟩
  rw [hs, Bool.eq_false_iff, Ne, accepts_faulted_iff]
  exact hc

/-- Settles O38: what `reset` does not keep it takes from creation, where everything is zero. -/
theorem resetZeroesAllButTheDisplay : Obligations.ResetZeroesAllButTheDisplay := by
  intro s rest hr hp
  obtain ⟨hregs, hpc, hmem, hstack, hsp, -, hstatus⟩ := creationLeavesEverythingZero
  exact ⟨_, step_reset hr hp, hregs, hpc, hmem, hstack, hsp, hstatus, rfl, rfl⟩

/-- Settles O43: `run` is accepted and writes the status alone (`step_run`). -/
theorem runStartsAtTheCurrentPc : Obligations.RunStartsAtTheCurrentPc := fun _ _ => step_run

/-! ### Canonical memories as their contents -/

theorem Memory.read_cons_self (k : Nat) (b : Byte) (m : Memory) : Memory.read ((k, b) :: m) k = b :=
  if_pos rfl

theorem Memory.read_cons_of_ne {k a : Nat} (b : Byte) (m : Memory) (h : a ≠ k) :
    Memory.read ((k, b) :: m) a = Memory.read m a :=
  if_neg h

/-- A memory that reads as a canonical one lists no cell before that one's first: it would be non-zero there. -/
theorem Memory.head_le_of_read_eq {lo lo' k k' : Nat} {b b' : Byte} {m m' : Memory}
    (h : Memory.wfFrom lo ((k, b) :: m) = true) (h' : Memory.wfFrom lo' ((k', b') :: m') = true)
    (heq : ∀ a, Memory.read ((k, b) :: m) a = Memory.read ((k', b') :: m') a) : k' ≤ k := by
  obtain ⟨-, -, hb, -⟩ := Memory.wfFrom_cons.mp h
  by_contra hlt
  have hlow : Memory.wfFrom k' ((k', b') :: m') = true :=
    Memory.wfFrom_cons.mpr ⟨Nat.le_refl k', (Memory.wfFrom_cons.mp h').2⟩
  have hread := heq k
  rw [Memory.read_cons_self, Memory.read_below hlow (Nat.lt_of_not_le hlt)] at hread
  exact hb hread

theorem Memory.eq_nil_of_read_eq_zero {lo : Nat} {m : Memory} (h : Memory.wfFrom lo m = true)
    (hzero : ∀ a, Memory.read m a = 0) : m = [] := by
  cases m with
  | nil => rfl
  | cons c m =>
    obtain ⟨k, b⟩ := c
    obtain ⟨-, -, hb, -⟩ := Memory.wfFrom_cons.mp h
    exact absurd ((Memory.read_cons_self k b m).symm.trans (hzero k)) hb

/-- The first listed cell is the first non-zero one, and behind it the rests read the same: below they read zero. -/
theorem Memory.eq_of_read_eq {lo lo' : Nat} {m m' : Memory} (h : Memory.wfFrom lo m = true)
    (h' : Memory.wfFrom lo' m' = true) (heq : ∀ a, Memory.read m a = Memory.read m' a) : m = m' := by
  induction m generalizing lo lo' m' with
  | nil => exact (Memory.eq_nil_of_read_eq_zero h' fun a => (heq a).symm).symm
  | cons c m ih =>
    cases m' with
    | nil => exact Memory.eq_nil_of_read_eq_zero h heq
    | cons c' m' =>
      obtain ⟨k, b⟩ := c
      obtain ⟨k', b'⟩ := c'
      obtain rfl : k = k' :=
        Nat.le_antisymm (Memory.head_le_of_read_eq h' h fun a => (heq a).symm) (Memory.head_le_of_read_eq h h' heq)
      obtain ⟨-, -, -, hm⟩ := Memory.wfFrom_cons.mp h
      obtain ⟨-, -, -, hm'⟩ := Memory.wfFrom_cons.mp h'
      have hb : b = b' := by simpa only [Memory.read_cons_self] using heq k
      have hrest : ∀ a, Memory.read m a = Memory.read m' a := fun a => by
        by_cases ha : a = k
        · rw [ha, Memory.read_below hm (Nat.lt_succ_self k), Memory.read_below hm' (Nat.lt_succ_self k)]
        · simpa only [Memory.read_cons_of_ne _ _ ha] using heq a
      rw [hb, ih hm hm' hrest]

/-- Settles O48, by induction on the listed cells. -/
theorem canonicalMemoriesAreTheirContents : Obligations.CanonicalMemoriesAreTheirContents := fun _ _ =>
  Memory.eq_of_read_eq

end Sys2Proof.Machine
end
